-- ==== Sys2Proof/Word.lean ====
section
/-! DEFINITION. The word types of CORE (spec/00_scope.md R7): host registers, counts and addresses are
32 bits, samples and coefficients 16 bits, the accumulator 64 bits. -/

namespace Sys2Proof

/-- A host register, a count or a word address: 32 bits, read as an unsigned integer (R7, R22). -/
abbrev Word := BitVec 32

/-- One word of sample memory: a Q15 sample or coefficient, 16 bits, two's complement (R7, R10). -/
abbrev Sample := BitVec 16

/-- The accumulator: 64 bits, two's complement, of Q30 weight (R7, R28). -/
abbrev AccWord := BitVec 64

end Sys2Proof
end

