-- ==== Sys2Proof/Syntax.lean ====
section
/-! DEFINITION. The command set FIRQ15-1 (spec/30_encoding.md R84): one constructor per row of
spec/opcode_table.json. No command has an operand in its word (R85): every operand is read from the
argument registers when the command runs, so the constructors carry no argument. -/

namespace Sys2Proof

/-- The four commands of R84. -/
inductive Instr where
  /-- INITD: initialise the decimator channel (R150). -/
  | initd
  /-- RUND: process one block through the decimator (R157). -/
  | rund
  /-- INITI: initialise the interpolator channel (R180). -/
  | initi
  /-- RUNI: process one block through the interpolator (R187). -/
  | runi
  deriving DecidableEq, Repr

end Sys2Proof
end

