-- ==== Sys2Proof/WellFormed.lean ====
section
/-! DEFINITION. Well-formed command words and commands (spec/30_encoding.md R82, R88). -/

namespace Sys2Proof

/-- The three fields of a command word (R82). -/
structure CmdFields where
  /-- bits [31:5]: must be 0 -/
  zero : BitVec 27
  /-- bit [4]: 0 the decimator channel DEC, 1 the interpolator channel INT -/
  ch : BitVec 1
  /-- bits [3:0]: 1 initialise, 2 run, every other value illegal -/
  fn : BitVec 4
  deriving DecidableEq, Repr

/-- R82: the ZERO field is 0 and the function is one of the two legal ones. CH has no check, both its
values are channels. -/
def CmdFields.wf (f : CmdFields) : Bool := f.zero == 0 && (f.fn == 1 || f.fn == 2)

/-- A command has no operand field (R85), so there is nothing in it that could be ill-formed. What can
be ill-formed is a command WORD: `CmdFields.wf`. -/
def Instr.wf : Instr → Bool
  | .initd => true
  | .rund => true
  | .initi => true
  | .runi => true

end Sys2Proof
end

