-- ==== Sys2Proof/Decode.lean ====
section
/-! DEFINITION. Decoding and encoding of command words (spec/30_encoding.md R82, R84, R88, R89). A
command word is one 32-bit register value, accessed whole, so it has no byte order (R53). The decoder
follows R84's table of four words; the encoder is written from R82's fields, so that their agreement
is a check of one against the other. -/

namespace Sys2Proof

/-- Why a word is no command. -/
inductive DecodeError where
  /-- R88: every word other than R84's four is an illegal command word. The machine answers it with the
  contract violation of cause 1. -/
  | illegalCommandWord
  deriving DecidableEq, Repr

/-- R84: a word selects a command only by exact equality with one of four values (mask 0xFFFFFFFF). -/
def decode (w : Word) : Except DecodeError Instr :=
  if w = 0x00000001#32 then .ok .initd
  else if w = 0x00000002#32 then .ok .rund
  else if w = 0x00000011#32 then .ok .initi
  else if w = 0x00000012#32 then .ok .runi
  else .error .illegalCommandWord

/-- R82: the fields of a word. -/
def fieldsOfWord (w : Word) : CmdFields :=
  ⟨w.extractLsb' 5 27, w.extractLsb' 4 1, w.extractLsb' 0 4⟩

/-- R82: the word of some fields. -/
def wordOfFields (f : CmdFields) : Word := (f.zero ++ f.ch ++ f.fn).cast (by decide)

/-- R84: the CH and FN columns of the table. -/
def fieldsOfInstr : Instr → CmdFields
  | .initd => ⟨0, 0, 1⟩
  | .rund => ⟨0, 0, 2⟩
  | .initi => ⟨0, 1, 1⟩
  | .runi => ⟨0, 1, 2⟩

/-- The word of a command, assembled from R82's fields. -/
def encode (i : Instr) : Word := wordOfFields (fieldsOfInstr i)

/-- The command that the decoder reads from an instruction of `nbits` bits `w`, numbered as
spec/opcode_table.json numbers them; bits above `nbits` are 0, and an instruction wider than the one
format of R82 (32 bits) is no command. -/
def decodeTableWord (nbits w : Nat) : Option Instr :=
  if w % 2 ^ nbits < 4294967296 then
    match decode (BitVec.ofNat 32 (w % 2 ^ nbits)) with
    | .ok i => some i
    | .error _ => none
  else none

end Sys2Proof
end

