-- ==== Sys2Proof/Machine/Arith.lean ====
section
/-! DEFINITION. Fixed-point arithmetic on integers: spec/00_scope.md R8 to R10 and the functions of
spec/40_arith_mac.md that touch no state. Values are computed exactly on `Int` and narrowed at the end. -/

namespace Sys2Proof.Machine

/-- R8: `clamp(v, lo, hi)`. -/
def clamp (v lo hi : Int) : Int := if v < lo then lo else if hi < v then hi else v

/-- R8: `asr(v, n) = v div 2^n`, the floor, for negative v too. -/
def asr (v : Int) (n : Nat) : Int := v / ((2 ^ n : Nat) : Int)

/-- R9: the integer value of a 16-bit word, two's complement. -/
def s16 (w : Sample) : Int := w.toInt

/-- R9: the 16-bit word of an integer, `v mod 2^16`. -/
def w16 (v : Int) : Sample := BitVec.ofInt 16 v

/-- R9: `u32(v) = v mod 2^32`. -/
def u32 (v : Int) : Word := BitVec.ofInt 32 v

/-- R111: the exact product of two Q15 integers, a Q30 integer. -/
def mul (c x : Int) : Int := c * x

/-- R113: the least value of a 64-bit signed accumulator, -2^63. -/
def accMin : Int := -9223372036854775808

/-- R113: the greatest value of a 64-bit signed accumulator, 2^63 - 1. -/
def accMax : Int := 9223372036854775807

/-- R115: add the half-unit bias 2^14, then shift right by 15. -/
def rnd (a : Int) : Int := asr (a + 16384) 15

/-- R117: clamp to the 16-bit signed range. -/
def sat16 (y : Int) : Int := clamp y (-32768) 32767

end Sys2Proof.Machine
end

