-- ==== Sys2Proof/Config.lean ====
section
/-! DEFINITION. What an implementation fixes and the spec leaves open. -/

namespace Sys2Proof

/-- The word that the sample memory holds at an address no transaction has written since power-up:
"unspecified", "fixed but unknown" (spec/10_state.md R36, spec/93_implementation_defined.md U2).
A FREE VALUE: it has no body, so nothing can be proved of it and a claim holds whatever it is
(notes/assumptions/1.md). -/
opaque Config.powerUpWord : Nat → Sample

/-- The bounds of the open parameter `MEM_WORDS` (spec/00_scope.md R7): 2 ≤ MEM_WORDS ≤ 2^32. The
parameter itself stands in `State.memWords`, since the model takes it as an argument
(notes/assumptions/2.md). -/
abbrev Config.MemWordsLegal (memWords : Nat) : Prop := 2 ≤ memWords ∧ memWords ≤ 4294967296

end Sys2Proof
end

