-- ==== Sys2Proof/Machine/State.lean ====
section
/-! DEFINITION. The state of CORE as plain data (spec/10_state.md), the reasons a step can stop, and
the state after reset (R36). -/

namespace Sys2Proof.Machine

/-- The response of a command, STATUS.RESP (R24, R230); the code 3 never occurs. -/
inductive Response where
  | success
  | invalidParameter
  | contractViolation
  deriving DecidableEq, Repr

/-- The cause of a contract violation, STATUS.CAUSE (R24, R235); the codes 7 to 15 are never produced. -/
inductive Cause where
  /-- code 0: RESP is not 2 -/
  | noCause
  /-- code 1: the word written to CMD is no command -/
  | illegalCommand
  /-- code 2: the channel is not live -/
  | notLive
  /-- code 3: the block size is no multiple of M (RUND only) -/
  | blockNotMultiple
  /-- code 4: the block is larger than Bmax -/
  | blockTooLarge
  /-- code 5: the input or the output base is 0 -/
  | nullBuffer
  /-- code 6: the input or the output region passes MEM_WORDS -/
  | addressRange
  deriving DecidableEq, Repr

/-- The fields of the STATUS register (R24). The word the host reads is assembled from them (R212). -/
structure Status where
  resp : Response
  cause : Cause
  liveD : Bool
  liveI : Bool
  cvs : Bool
  deriving DecidableEq, Repr

/-- The five argument registers (R22). -/
structure Args where
  a0 : Word
  a1 : Word
  a2 : Word
  a3 : Word
  a4 : Word
  deriving DecidableEq, Repr

/-- A channel descriptor (R25 for the decimator, R26 for the interpolator). -/
structure Descriptor where
  /-- T, the number of coefficients -/
  taps : Word
  /-- M or L, the decimation or interpolation factor -/
  factor : Word
  /-- word address of coefficient 0 -/
  coef : Word
  /-- word address of state word 0 -/
  state : Word
  /-- Bmax, the upper bound on a block -/
  maxblk : Word
  deriving DecidableEq, Repr

/-- The descriptor of a channel that was never initialised (R25, R26: all five fields 0). -/
def Descriptor.zero : Descriptor := ⟨0, 0, 0, 0, 0⟩

/-- The named registers of the unit's register space (R80). -/
inductive Reg where
  | a0 | a1 | a2 | a3 | a4 | cmd | status
  | dTaps | dFactor | dCoef | dState | dMaxblk
  | iTaps | iFactor | iCoef | iState | iMaxblk
  deriving DecidableEq, Repr

/-- The four kinds of host transaction (R81). -/
inductive Transaction where
  /-- register write: byte offset, data -/
  | hwr (off : Word) (d : Word)
  /-- register read: byte offset -/
  | hrd (off : Word)
  /-- sample-memory write: word address, data -/
  | mwr (a : Word) (w : Sample)
  /-- sample-memory read: word address -/
  | mrd (a : Word)
  deriving DecidableEq, Repr

/-- The widths, other than 32 bits, of a register access that a host might attempt (R210, U6). -/
inductive OddWidth where
  | byte
  | half
  | double
  deriving DecidableEq, Repr

/-- What reaches the unit from outside: a host transaction (R81), the reset input (R260), or a register
access of a width the interface does not have (R210, U6). -/
inductive Event where
  | host (t : Transaction)
  | reset
  | oddAccess (off : Word) (w : OddWidth)
  deriving DecidableEq, Repr

/-- What a read transaction returned to the host: 32 bits of a register or 16 of a memory word. -/
inductive HostData where
  | reg (d : Word)
  | word (w : Sample)
  deriving DecidableEq, Repr

/-- Sample memory as (word address, word) pairs. R50: there is no smaller addressable unit than the
16-bit word. An unlisted address holds no value the model knows: `memLookup` answers `none` there, and
`readWord` reads the free value `Config.powerUpWord` (notes/assumptions/1.md, 3.md). -/
abbrev Memory := List (Nat × Sample)

/-- The canonical form: addresses strictly rising. An entry always differs from what an unlisted address
answers, since that is no value at all. -/
abbrev Memory.wf (m : Memory) : Prop := List.Pairwise (fun x y => x.1 < y.1) m

/-- Everything the spec gives one unit (R20), the sample memory it works on (R32), the parameter
MEM_WORDS (R7, R21), and the model's own two fields for the host on the other side of the interface:
the events still to come and the data its reads returned. -/
structure State where
  /-- A0 to A4 (R22) -/
  args : Args
  /-- CMD: the last command word written (R23) -/
  cmd : Word
  /-- STATUS (R24) -/
  status : Status
  /-- the decimator descriptor D (R25) -/
  descD : Descriptor
  /-- the interpolator descriptor I (R26) -/
  descI : Descriptor
  /-- the accumulator ACC (R28) -/
  acc : AccWord
  /-- the sample memory MEM (R32, R50) -/
  mem : Memory
  /-- the parameter MEM_WORDS (R7, R21): fixed, no step writes it -/
  memWords : Nat
  /-- the MODEL'S OWN: the events the outside world has yet to send, first one first (R21, R30) -/
  events : List Event
  /-- the MODEL'S OWN: what the host's reads have returned, newest first -/
  returned : List HostData
  deriving DecidableEq, Repr

/-- Why the machine stops with a fault. -/
inductive Fault where
  /-- Raised by RUND and RUNI, once accepted, in a state whose live channel holds a descriptor that no
  initialisation would have committed, so that an access might leave MEM, where MemRead and MemWrite are
  not defined (R56, R57). R27 says that no such state is reached. Safe: it only stops. -/
  | descriptorNotLegal
  deriving DecidableEq, Repr

/-- Why the model gives a transaction no meaning. -/
inductive Refusal where
  /-- Raised by an arm of `exec` whose command has no meaning yet. Safe. -/
  | notModelled (mnemonic : String)
  /-- Raised by RUND and RUNI, once accepted, when COEF, STATE, IN and OUT are not pairwise disjoint: the
  spec defines no result and says a model must refuse (R61, U3). Safe. -/
  | regionsOverlap
  /-- Raised by MWR and MRD at an address that is MEM_WORDS or above: not defined, a model refuses (R216,
  R217, U5). Safe. -/
  | addressOutsideMem
  /-- Raised by a register access that is not 32 bits wide: a model refuses (R210, U6). Safe. -/
  | registerAccessWidth
  /-- Raised by a system of several units when two of them act at the same time on a common word of MEM,
  one of them writing it, or when two hosts drive one unit at once: a data race, a model refuses (R69,
  U4). Safe. -/
  | dataRace
  /-- Raised by a system of several units when a unit is named that it does not have. Safe. -/
  | noSuchUnit
  deriving DecidableEq, Repr

/-- STATUS after reset (R36): last response SUCCESS, no cause, no channel live, CVS 0. -/
def Status.reset : Status := ⟨.success, .noCause, false, false, false⟩

/-- The argument registers after reset (R36). -/
def Args.reset : Args := ⟨0, 0, 0, 0, 0⟩

/-- The machine right after reset (R36, R260), with no event pending and no word of memory known.
MEM_WORDS is a parameter the spec leaves open; 4096, the value of the spec's own vectors, is the
model's choice (notes/assumptions/2.md). -/
def State.reset : State where
  args := Args.reset
  cmd := 0
  status := Status.reset
  descD := Descriptor.zero
  descI := Descriptor.zero
  acc := 0
  mem := []
  memWords := 4096
  events := []
  returned := []

end Sys2Proof.Machine
end

