-- ==== Sys2Proof/Machine/Ops.lean ====
section
/-! DEFINITION. The named operations over the state: field updates, sample memory, the responses and
the contract violation, the micro-operations of spec/40_arith_mac.md and the delay-line shifter of
spec/41_delay_line.md. -/

namespace Sys2Proof.Machine

/-! ## Field updates -/

def State.setArgs (s : State) (v : Args) : State := { s with args := v }
def State.setCmd (s : State) (v : Word) : State := { s with cmd := v }
def State.setStatus (s : State) (v : Status) : State := { s with status := v }
def State.setDescD (s : State) (v : Descriptor) : State := { s with descD := v }
def State.setDescI (s : State) (v : Descriptor) : State := { s with descI := v }
def State.setAcc (s : State) (v : AccWord) : State := { s with acc := v }
def State.setMem (s : State) (v : Memory) : State := { s with mem := v }
def State.setEvents (s : State) (v : List Event) : State := { s with events := v }
def State.setReturned (s : State) (v : List HostData) : State := { s with returned := v }

/-! ## Sample memory -/

/-- The word listed at an address, if one is. -/
def memLookup : Memory → Nat → Option Sample
  | [], _ => none
  | (b, w) :: m, a => if a = b then some w else memLookup m a

/-- The memory with a word listed at an address; the canonical form is kept. -/
def memInsert : Memory → Nat → Sample → Memory
  | [], a, w => [(a, w)]
  | (b, u) :: m, a, w =>
    if a < b then (a, w) :: (b, u) :: m
    else if a = b then (a, w) :: m
    else (b, u) :: memInsert m a w

/-- MEM[a]: the word written there, or the free value it has held since power-up (R36, U2). -/
def readWord (a : Nat) (s : State) : Sample := (memLookup s.mem a).getD (Config.powerUpWord a)

/-- MEM[a] <- w. -/
def writeWord (a : Nat) (w : Sample) (s : State) : State := s.setMem (memInsert s.mem a w)

/-- R56: `MemRead(a, 16)`, the integer value of the word; it changes nothing. -/
def memRead (a : Nat) (s : State) : Int := s16 (readWord a s)

/-- R57: `MemWrite(a, 16, v)`. -/
def memWrite (a : Nat) (v : Int) (s : State) : State := writeWord a (w16 v) s

/-! ## The end of a command -/

/-- R231: `respond r`: RESP <- r, CAUSE <- 0, the other fields of STATUS as they were. -/
def respond (r : Response) (s : State) : State :=
  s.setStatus { s.status with resp := r, cause := .noCause }

/-- TAKING AN EXCEPTION, which on CORE is `raise ContractViolation(cause)` (R231, R236): RESP <- 2,
CAUSE <- cause, CVS <- 1 and nothing else. Nothing is saved and control goes nowhere, since there is no
pc, mode or handler (R236), and there is no return from it (R243): only reset clears CVS (R237). -/
def contractViolation (c : Cause) (s : State) : State :=
  s.setStatus { s.status with resp := .contractViolation, cause := c, cvs := true }

/-- R260, R261: the reset input. Every register of the unit takes its reset value (R36); MEM and the
parameter MEM_WORDS stay, and so does the host on the other side of the interface. -/
def resetUnit (s : State) : State :=
  { State.reset with mem := s.mem, memWords := s.memWords, events := s.events, returned := s.returned }

/-! ## Counted loops -/

/-- R12: `for v in 0..n-1`, ascending; runs zero times when n is 0. -/
def forUpTo : Nat → (Nat → State → State) → State → State
  | 0, _, s => s
  | n + 1, body, s => body n (forUpTo n body s)

/-! ## The multiply-accumulate datapath -/

/-- R112: MACCLR, ACC <- 0. -/
def macclr (s : State) : State := s.setAcc 0

/-- R113: MAC(c, x), ACC <- clamp(ACC + MUL(c, x), -2^63, 2^63 - 1). -/
def mac (c x : Int) (s : State) : State :=
  s.setAcc (BitVec.ofInt 64 (clamp (s.acc.toInt + mul c x) accMin accMax))

/-- R116: RNDSAT, the accumulator rounded, then clamped to a Q15 integer. -/
def rndsat (s : State) : Int := sat16 (rnd s.acc.toInt)

/-- R118: the accumulation of DOT over `n` terms, coefficient and sample read from MEM at the addresses
the caller rule pairs, in ascending tap index. -/
def accumulate (n : Nat) (coefAt sampleAt : Nat → Nat) (s : State) : State :=
  forUpTo n (fun k t => mac (memRead (coefAt k) t) (memRead (sampleAt k) t) t) (macclr s)

/-- One output sample: MACCLR, the MACs, and the store of RNDSAT at `out` (R157, R187). -/
def storeOutput (out n : Nat) (coefAt sampleAt : Nat → Nat) (s : State) : State :=
  let t := accumulate n coefAt sampleAt s
  memWrite out (rndsat t) t

/-! ## The delay-line shifter -/

/-- R132: APPEND(S, H, pIn, B): the input block copied to the state words H .. H+B-1. -/
def append (st h pIn b : Nat) (s : State) : State :=
  forUpTo b (fun j t => memWrite (st + h + j) (memRead (pIn + j) t) t) s

/-- R135: SHIFT(S, H, B): the last H window words moved to the bottom, in ascending order. -/
def shift (st h b : Nat) (s : State) : State :=
  forUpTo h (fun j t => memWrite (st + j) (memRead (st + b + j) t) t) s

end Sys2Proof.Machine
end

