-- ==== Sys2Proof/Machine/Operands.lean ====
section
/-! DEFINITION. Every operand form: what the commands read from the argument registers
(spec/30_encoding.md R85, R86), the lengths computed from a descriptor (spec/00_scope.md R13), the
regions a RUN command touches (spec/20_memory.md R60, R61), and the checks on them (spec/42_decimator.md
R153, R158; spec/43_interpolator.md R183, R188). All of it is arithmetic on unbounded integers (R52). -/

namespace Sys2Proof.Machine

/-! ## Operands of the initialisations -/

/-- R86, INITD: T in A0, M in A1, coefficient base in A2, state base in A3, Bmax in A4. -/
def initdOperands (s : State) : Descriptor :=
  { taps := s.args.a0, factor := s.args.a1, coef := s.args.a2, state := s.args.a3,
    maxblk := s.args.a4 }

/-- R86, INITI: L in A0 and T in A1, the reverse of INITD; the rest as INITD. -/
def initiOperands (s : State) : Descriptor :=
  { taps := s.args.a1, factor := s.args.a0, coef := s.args.a2, state := s.args.a3,
    maxblk := s.args.a4 }

/-- R153: VALID_D, the nine conditions in the table's order. A later condition is evaluated only where
the earlier ones hold, so `mod` always has a divisor of at least 1. -/
abbrev validD (memWords : Nat) (d : Descriptor) : Prop :=
  1 ≤ d.factor.toNat ∧ 1 ≤ d.taps.toNat ∧ d.taps.toNat % d.factor.toNat = 0 ∧
  d.coef.toNat ≠ 0 ∧ d.state.toNat ≠ 0 ∧
  1 ≤ d.maxblk.toNat ∧ d.maxblk.toNat % d.factor.toNat = 0 ∧
  d.coef.toNat + d.taps.toNat ≤ memWords ∧
  d.state.toNat + d.taps.toNat + d.maxblk.toNat - 1 ≤ memWords

/-- R183: VALID_I, the eight conditions in the table's order. -/
abbrev validI (memWords : Nat) (d : Descriptor) : Prop :=
  1 ≤ d.factor.toNat ∧ 1 ≤ d.taps.toNat ∧ d.taps.toNat % d.factor.toNat = 0 ∧
  d.coef.toNat ≠ 0 ∧ d.state.toNat ≠ 0 ∧
  1 ≤ d.maxblk.toNat ∧
  d.coef.toNat + d.taps.toNat ≤ memWords ∧
  d.state.toNat + d.taps.toNat / d.factor.toNat + d.maxblk.toNat - 1 ≤ memWords

/-! ## Operands of the runs -/

/-- R86, RUND and RUNI: the input base, A0. -/
def inputBase (s : State) : Nat := s.args.a0.toNat

/-- R86, RUND and RUNI: the output base, A1. -/
def outputBase (s : State) : Nat := s.args.a1.toNat

/-- R86, RUND and RUNI: B, the block size, A2. -/
def blockSize (s : State) : Nat := s.args.a2.toNat

/-- R131: the decimator's history length, T - 1. -/
def historyD (d : Descriptor) : Nat := d.taps.toNat - 1

/-- R13: P, the taps of one polyphase sub-filter, T div L. -/
def subTaps (d : Descriptor) : Nat := d.taps.toNat / d.factor.toNat

/-- R131: the interpolator's history length, P - 1. -/
def historyI (d : Descriptor) : Nat := subTaps d - 1

/-- R162: the number of output words of a RUND, B div M. -/
def outputsD (s : State) : Nat := blockSize s / s.descD.factor.toNat

/-- R192: the number of output words of a RUNI, B * L, in unbounded integers. -/
def outputsI (s : State) : Nat := blockSize s * s.descI.factor.toNat

/-! ## Regions -/

/-- R60: the consecutive word addresses [base, base + len). -/
structure Region where
  base : Nat
  len : Nat
  deriving DecidableEq, Repr

/-- R61: no address in both; a region of length 0 is disjoint from everything. -/
abbrev Region.disjoint (r q : Region) : Prop :=
  r.len = 0 ∨ q.len = 0 ∨ r.base + r.len ≤ q.base ∨ q.base + q.len ≤ r.base

/-- R60: the four regions of a RUN command. -/
structure RunRegions where
  coef : Region
  state : Region
  input : Region
  output : Region
  deriving DecidableEq, Repr

/-- R61: the disjointness obligation. -/
abbrev RunRegions.pairwiseDisjoint (r : RunRegions) : Prop :=
  r.coef.disjoint r.state ∧ r.coef.disjoint r.input ∧ r.coef.disjoint r.output ∧
  r.state.disjoint r.input ∧ r.state.disjoint r.output ∧ r.input.disjoint r.output

/-- R60, the RUND rows. -/
def regionsD (s : State) : RunRegions where
  coef := ⟨s.descD.coef.toNat, s.descD.taps.toNat⟩
  state := ⟨s.descD.state.toNat, historyD s.descD + blockSize s⟩
  input := ⟨inputBase s, blockSize s⟩
  output := ⟨outputBase s, outputsD s⟩

/-- R60, the RUNI rows. -/
def regionsI (s : State) : RunRegions where
  coef := ⟨s.descI.coef.toNat, s.descI.taps.toNat⟩
  state := ⟨s.descI.state.toNat, historyI s.descI + blockSize s⟩
  input := ⟨inputBase s, blockSize s⟩
  output := ⟨outputBase s, outputsI s⟩

/-! ## Acceptance -/

/-- R158, R242: the cause RUND is rejected with, the first failing line in ascending cause code, or none
where it is accepted. -/
def rejectD (s : State) : Option Cause :=
  if s.status.liveD = false then some .notLive
  else if blockSize s % s.descD.factor.toNat ≠ 0 then some .blockNotMultiple
  else if s.descD.maxblk.toNat < blockSize s then some .blockTooLarge
  else if inputBase s = 0 ∨ outputBase s = 0 then some .nullBuffer
  else if s.memWords < inputBase s + blockSize s ∨ s.memWords < outputBase s + outputsD s then
    some .addressRange
  else none

/-- R188, R242: the cause RUNI is rejected with, or none where it is accepted. Cause 3 cannot arise. -/
def rejectI (s : State) : Option Cause :=
  if s.status.liveI = false then some .notLive
  else if s.descI.maxblk.toNat < blockSize s then some .blockTooLarge
  else if inputBase s = 0 ∨ outputBase s = 0 then some .nullBuffer
  else if s.memWords < inputBase s + blockSize s ∨ s.memWords < outputBase s + outputsI s then
    some .addressRange
  else none

end Sys2Proof.Machine
end

