-- ==== Sys2Proof/Machine/Decimator.lean ====
section
/-! DEFINITION. The decimator channel: INITD and RUND (spec/42_decimator.md). -/

namespace Sys2Proof.Machine

/-- R155: a valid descriptor committed to D, and LIVE_D <- 1. -/
def commitD (d : Descriptor) (s : State) : State :=
  (s.setDescD d).setStatus { s.status with liveD := true }

/-- R150: INITD. It touches no memory; an invalid operand list commits nothing (R154). -/
def execInitd (s : State) : Host.Outcome State Fault Refusal :=
  if validD s.memWords (initdOperands s) then
    .next (respond .success (commitD (initdOperands s) s))
  else .next (respond .invalidParameter s)

/-- R157, R160: the outputs of RUND, out[i] from the window words ending at i*M + T - 1, c[0] with the
newest; MACCLR, T MACs and one store for each i in ascending order. -/
def decimate (d : Descriptor) (pOut nOut : Nat) (s : State) : State :=
  forUpTo nOut
    (fun i t => storeOutput (pOut + i) d.taps.toNat (fun k => d.coef.toNat + k)
      (fun k => d.state.toNat + i * d.factor.toNat + d.taps.toNat - 1 - k) t) s

/-- R157: the work of an accepted RUND: APPEND, the outputs, SHIFT. -/
def runDecimator (s : State) : State :=
  shift s.descD.state.toNat (historyD s.descD) (blockSize s)
    (decimate s.descD (outputBase s) (outputsD s)
      (append s.descD.state.toNat (historyD s.descD) (inputBase s) (blockSize s) s))

/-- R157: RUND. A rejected command is a contract violation and touches nothing else (R158, R236); an
accepted one whose regions overlap has no defined result and is refused (R61). -/
def execRund (s : State) : Host.Outcome State Fault Refusal :=
  match rejectD s with
  | some c => .next (contractViolation c s)
  | none =>
    if ¬ validD s.memWords s.descD then .fault .descriptorNotLegal
    else if ¬ (regionsD s).pairwiseDisjoint then .refused .regionsOverlap
    else .next (respond .success (runDecimator s))

end Sys2Proof.Machine
end

