-- ==== Sys2Proof/Machine/Interpolator.lean ====
section
/-! DEFINITION. The interpolator channel: INITI and RUNI (spec/43_interpolator.md). -/

namespace Sys2Proof.Machine

/-- R185: a valid descriptor committed to I, and LIVE_I <- 1. -/
def commitI (d : Descriptor) (s : State) : State :=
  (s.setDescI d).setStatus { s.status with liveI := true }

/-- R180: INITI. It touches no memory; an invalid operand list commits nothing (R184). -/
def execIniti (s : State) : Host.Outcome State Fault Refusal :=
  if validI s.memWords (initiOperands s) then
    .next (respond .success (commitI (initiOperands s) s))
  else .next (respond .invalidParameter s)

/-- R187, R190: the outputs of RUNI: for each input n, and for each phase p in ascending order, the
sub-filter c[p], c[p+L], ... with c[p] on the newest sample. -/
def interpolate (d : Descriptor) (pOut b : Nat) (s : State) : State :=
  forUpTo b
    (fun n t => forUpTo d.factor.toNat
      (fun p u => storeOutput (pOut + n * d.factor.toNat + p) (subTaps d)
        (fun j => d.coef.toNat + p + j * d.factor.toNat)
        (fun j => d.state.toNat + n + subTaps d - 1 - j) u) t) s

/-- R187: the work of an accepted RUNI: APPEND, the outputs, SHIFT. -/
def runInterpolator (s : State) : State :=
  shift s.descI.state.toNat (historyI s.descI) (blockSize s)
    (interpolate s.descI (outputBase s) (blockSize s)
      (append s.descI.state.toNat (historyI s.descI) (inputBase s) (blockSize s) s))

/-- R187: RUNI. A rejected command is a contract violation and touches nothing else (R188, R236); an
accepted one whose regions overlap has no defined result and is refused (R61). -/
def execRuni (s : State) : Host.Outcome State Fault Refusal :=
  match rejectI s with
  | some c => .next (contractViolation c s)
  | none =>
    if ¬ validI s.memWords s.descI then .fault .descriptorNotLegal
    else if ¬ (regionsI s).pairwiseDisjoint then .refused .regionsOverlap
    else .next (respond .success (runInterpolator s))

end Sys2Proof.Machine
end

