-- ==== Sys2Proof/Machine/Dispatch.lean ====
section
/-! DEFINITION. The command dispatch (spec/44_host_interface.md R213), one arm per command. -/

namespace Sys2Proof.Machine

def exec (i : Instr) (s : State) : Host.Outcome State Fault Refusal :=
  match i with
  | .initd => Sys2Proof.Machine.execInitd s
  | .rund => Sys2Proof.Machine.execRund s
  | .initi => Sys2Proof.Machine.execIniti s
  | .runi => Sys2Proof.Machine.execRuni s

end Sys2Proof.Machine
end

