-- ==== Sys2Proof/Machine/Flags.lean ====
section
/-! DEFINITION. The STATUS word (spec/10_state.md R24, spec/60_exceptions.md R230, R235). CORE has no
carry, zero, negative, overflow or saturation flag (R31), so this is every flag computation there is. -/

namespace Sys2Proof.Machine

/-- The codes of R230. -/
def responseCode : Response → Nat
  | .success => 0
  | .invalidParameter => 1
  | .contractViolation => 2

/-- The codes of R235. -/
def causeCode : Cause → Nat
  | .noCause => 0
  | .illegalCommand => 1
  | .notLive => 2
  | .blockNotMultiple => 3
  | .blockTooLarge => 4
  | .nullBuffer => 5
  | .addressRange => 6

/-- R24: the STATUS word as a read assembles it: RESP [1:0], CAUSE [7:4], LIVE_D [8], LIVE_I [9],
CVS [10], every other bit 0. -/
def statusWord (st : Status) : Word :=
  BitVec.ofNat 32
    (responseCode st.resp + 16 * causeCode st.cause + 256 * st.liveD.toNat + 512 * st.liveI.toNat
      + 1024 * st.cvs.toNat)

end Sys2Proof.Machine
end

