-- ==== Sys2Proof/Machine/HostIf.lean ====
section
/-! DEFINITION. The host interface (spec/44_host_interface.md): the register map, the four host
transactions, the write to CMD that runs a command, reset, and what one event does. -/

namespace Sys2Proof.Machine

/-- R80: the byte offset of each register. -/
def regOffset : Reg → Word
  | .a0 => 0x00 | .a1 => 0x04 | .a2 => 0x08 | .a3 => 0x0C | .a4 => 0x10
  | .cmd => 0x14 | .status => 0x18
  | .dTaps => 0x20 | .dFactor => 0x24 | .dCoef => 0x28 | .dState => 0x2C | .dMaxblk => 0x30
  | .iTaps => 0x40 | .iFactor => 0x44 | .iCoef => 0x48 | .iState => 0x4C | .iMaxblk => 0x50

/-- R80: the register at a byte offset; every other offset is reserved (R214). -/
def regAt (off : Word) : Option Reg :=
  match off.toNat with
  | 0x00 => some .a0
  | 0x04 => some .a1
  | 0x08 => some .a2
  | 0x0C => some .a3
  | 0x10 => some .a4
  | 0x14 => some .cmd
  | 0x18 => some .status
  | 0x20 => some .dTaps
  | 0x24 => some .dFactor
  | 0x28 => some .dCoef
  | 0x2C => some .dState
  | 0x30 => some .dMaxblk
  | 0x40 => some .iTaps
  | 0x44 => some .iFactor
  | 0x48 => some .iCoef
  | 0x4C => some .iState
  | 0x50 => some .iMaxblk
  | _ => none

/-- R212: the content of a register; reading has no side effect on the unit. -/
def regValue (s : State) : Reg → Word
  | .a0 => s.args.a0
  | .a1 => s.args.a1
  | .a2 => s.args.a2
  | .a3 => s.args.a3
  | .a4 => s.args.a4
  | .cmd => s.cmd
  | .status => statusWord s.status
  | .dTaps => s.descD.taps
  | .dFactor => s.descD.factor
  | .dCoef => s.descD.coef
  | .dState => s.descD.state
  | .dMaxblk => s.descD.maxblk
  | .iTaps => s.descI.taps
  | .iFactor => s.descI.factor
  | .iCoef => s.descI.coef
  | .iState => s.descI.state
  | .iMaxblk => s.descI.maxblk

/-- R212, R214: what HRD returns: the register's content, 0 at a reserved offset. -/
def readRegister (off : Word) (s : State) : Word :=
  match regAt off with
  | some r => regValue s r
  | none => 0

/-- R213: a write to CMD: the word is stored, whatever it is (R23), and then the command it encodes is
executed; a word that encodes none is the contract violation of cause 1 (R88). -/
def writeCommand (d : Word) (s : State) : Host.Outcome State Fault Refusal :=
  match decode d with
  | .ok i => exec i (s.setCmd d)
  | .error .illegalCommandWord => .next (contractViolation .illegalCommand (s.setCmd d))

/-- R211: HWR(off, d). Writes to STATUS, to the descriptor mirrors (R215) and to reserved offsets (R214)
do nothing. -/
def hostWriteReg (off d : Word) (s : State) : Host.Outcome State Fault Refusal :=
  match regAt off with
  | some .a0 => .next (s.setArgs { s.args with a0 := d })
  | some .a1 => .next (s.setArgs { s.args with a1 := d })
  | some .a2 => .next (s.setArgs { s.args with a2 := d })
  | some .a3 => .next (s.setArgs { s.args with a3 := d })
  | some .a4 => .next (s.setArgs { s.args with a4 := d })
  | some .cmd => writeCommand d s
  | _ => .next s

/-- R212: HRD(off): the value goes to the host. -/
def hostReadReg (off : Word) (s : State) : Host.Outcome State Fault Refusal :=
  .next (s.setReturned (.reg (readRegister off s) :: s.returned))

/-- R216: MWR(a, w); outside MEM it is not defined and is refused. -/
def hostWriteMem (a : Word) (w : Sample) (s : State) : Host.Outcome State Fault Refusal :=
  if a.toNat < s.memWords then .next (writeWord a.toNat w s) else .refused .addressOutsideMem

/-- R217: MRD(a): the word goes to the host; outside MEM it is not defined and is refused. -/
def hostReadMem (a : Word) (s : State) : Host.Outcome State Fault Refusal :=
  if a.toNat < s.memWords then .next (s.setReturned (.word (readWord a.toNat s) :: s.returned))
  else .refused .addressOutsideMem

/-- R81: what one host transaction does. -/
def transact : Transaction → State → Host.Outcome State Fault Refusal
  | .hwr off d, s => hostWriteReg off d s
  | .hrd off, s => hostReadReg off s
  | .mwr a w, s => hostWriteMem a w s
  | .mrd a, s => hostReadMem a s

/-- What one event does: a host transaction, the reset input (R260), or a register access of a width the
interface does not have (R210, U6). -/
def perform : Event → State → Host.Outcome State Fault Refusal
  | .host t, s => transact t s
  | .reset, s => .next (resetUnit s)
  | .oddAccess _ _, _ => .refused .registerAccessWidth

/-- One step of the machine: the next event is taken and performed whole (R64, R213, R275). With no event
pending the unit is idle and keeps all its state (R220, R252). -/
def stepEvent (s : State) : Host.Outcome State Fault Refusal :=
  match s.events with
  | [] => .next s
  | e :: rest => perform e (s.setEvents rest)

/-- The host's next transaction is the write of a command word to CMD: `w`, of `nbits` bits, the bits
above them 0. This is how an instruction is presented to CORE, which fetches none (R30). -/
def presentCommand (s : State) (nbits w : Nat) : State :=
  s.setEvents (.host (.hwr (regOffset .cmd) (BitVec.ofNat 32 (w % 2 ^ nbits))) :: s.events)

end Sys2Proof.Machine
end

