-- ==== Sys2Proof/Machine/Step.lean ====
section
/-! DEFINITION. The step of the machine: one event from outside, performed whole. -/

namespace Sys2Proof.Machine

/-- One step (R64, R213). -/
def step (s : State) : Host.Outcome State Fault Refusal := stepEvent s

/-- `s` with the instruction `w` of `nbits` bits presented as the very next thing the host does: an HWR
of it to CMD. CORE has no memory it fetches from (R30), so nothing else is set. -/
def State.withFetchWord (s : State) (nbits w : Nat) : State := presentCommand s nbits w

end Sys2Proof.Machine
end

