-- ==== Sys2Proof/Machine/Script.lean ====
section
/-! DEFINITION. Host scripts: script lines, their transactions and the pseudo-instructions
(spec/30_encoding.md R90, R91, R92). -/

namespace Sys2Proof.Machine

/-- One line of a script (R90). Values are integers as written, signed or not. -/
inductive ScriptLine where
  | wr (r : Reg) (v : Int)
  | rd (r : Reg)
  | mw (a : Int) (v : Int)
  | mr (a : Int)
  | cmd (i : Instr)
  deriving DecidableEq, Repr

/-- R92: the transaction a line encodes; a number outside its field is taken modulo the field's size
(notes/assumptions/20.md). -/
def lineTransaction : ScriptLine → Transaction
  | .wr r v => .hwr (regOffset r) (u32 v)
  | .rd r => .hrd (regOffset r)
  | .mw a v => .mwr (u32 a) (w16 v)
  | .mr a => .mrd (u32 a)
  | .cmd i => .hwr (regOffset .cmd) (encode i)

/-- The pseudo-instructions (R91); INITI's factor comes first (R86). -/
inductive Pseudo where
  | initd (t m coef st bmax : Int)
  | rund (inp out b : Int)
  | initi (l t coef st bmax : Int)
  | runi (inp out b : Int)
  | fill (a : Int) (vs : List Int)
  | zero (a : Int) (n : Nat)
  deriving DecidableEq, Repr

/-- R91: `fill addr, v0, v1, ...`. -/
def fillLines : Int → List Int → List ScriptLine
  | _, [] => []
  | a, v :: vs => .mw a v :: fillLines (a + 1) vs

/-- R91: the expansion of a pseudo-instruction. -/
def expand : Pseudo → List ScriptLine
  | .initd t m coef st bmax =>
    [.wr .a0 t, .wr .a1 m, .wr .a2 coef, .wr .a3 st, .wr .a4 bmax, .cmd .initd]
  | .rund inp out b => [.wr .a0 inp, .wr .a1 out, .wr .a2 b, .cmd .rund]
  | .initi l t coef st bmax =>
    [.wr .a0 l, .wr .a1 t, .wr .a2 coef, .wr .a3 st, .wr .a4 bmax, .cmd .initi]
  | .runi inp out b => [.wr .a0 inp, .wr .a1 out, .wr .a2 b, .cmd .runi]
  | .fill a vs => fillLines a vs
  | .zero a n => fillLines a (List.replicate n 0)

/-- The events of a script, in order. -/
def scriptEvents (ls : List ScriptLine) : List Event := ls.map (fun l => .host (lineTransaction l))

/-- The machine with a script for the host to send next. -/
def loadScript (ls : List ScriptLine) (s : State) : State := s.setEvents (scriptEvents ls ++ s.events)

end Sys2Proof.Machine
end

