-- ==== Sys2Proof/Machine/System.lean ====
section
/-! DEFINITION. Several units on one sample memory (spec/20_memory.md R69, spec/60_exceptions.md R250).
The units are independent and share nothing but MEM; whole commands are interleaved, and what two units
do at the same time is refused where it races. One unit is the machine of Step.lean, complete in itself. -/

namespace Sys2Proof.Machine

/-- N_UNITS units (R7, the length of the list) and the memory they share. A unit's own `mem` stays empty
here: its memory is the shared one. -/
structure System where
  units : List State
  mem : Memory
  deriving DecidableEq, Repr

/-- Unit k as it sees the shared memory. -/
def unitAt (sys : System) (k : Nat) : Option State := (sys.units[k]?).map (fun s => s.setMem sys.mem)

/-- Unit k performs its next event, whole (R64, R250). -/
def stepUnit (k : Nat) (sys : System) : Host.Outcome System Fault Refusal :=
  match unitAt sys k with
  | none => .refused .noSuchUnit
  | some s =>
    match step s with
    | .next t => .next ⟨sys.units.set k (t.setMem []), t.mem⟩
    | .fault r => .fault r
    | .refused r => .refused r

/-- The words an event reads and writes. -/
structure Footprint where
  reads : List Region
  writes : List Region
  deriving DecidableEq, Repr

/-- R60: the access column of the table: COEF and IN are read, STATE is read and written, OUT is
written. -/
def runFootprint (r : RunRegions) : Footprint := ⟨[r.coef, r.state, r.input], [r.state, r.output]⟩

/-- The words a command touches: a rejected one and an initialisation touch none (R138). -/
def commandFootprint (i : Instr) (s : State) : Footprint :=
  match i with
  | .initd => ⟨[], []⟩
  | .rund => if rejectD s = none then runFootprint (regionsD s) else ⟨[], []⟩
  | .initi => ⟨[], []⟩
  | .runi => if rejectI s = none then runFootprint (regionsI s) else ⟨[], []⟩

/-- The words a unit's next event touches. -/
def nextFootprint (s : State) : Footprint :=
  match s.events with
  | .host (.hwr off d) :: _ =>
    match regAt off, decode d with
    | some .cmd, .ok i => commandFootprint i s
    | _, _ => ⟨[], []⟩
  | .host (.mwr a _) :: _ => ⟨[], [⟨a.toNat, 1⟩]⟩
  | .host (.mrd a) :: _ => ⟨[⟨a.toNat, 1⟩], []⟩
  | _ => ⟨[], []⟩

/-- Some word of `ws` is a word of `rs`. -/
def meets (ws rs : List Region) : Bool := ws.any (fun w => rs.any (fun r => ! decide (w.disjoint r)))

/-- R69: a word is written by one and read or written by the other. -/
def races (f g : Footprint) : Bool :=
  meets f.writes (g.reads ++ g.writes) || meets g.writes (f.reads ++ f.writes)

/-- R69: units j and k perform their next events at the same time. A race is refused, and so are two
hosts on one unit (U4); otherwise the result is that of one after the other. -/
def stepTogether (j k : Nat) (sys : System) : Host.Outcome System Fault Refusal :=
  match unitAt sys j, unitAt sys k with
  | some s, some t =>
    if j = k ∨ races (nextFootprint s) (nextFootprint t) = true then .refused .dataRace
    else
      match stepUnit j sys with
      | .next sys' => stepUnit k sys'
      | .fault r => .fault r
      | .refused r => .refused r
  | _, _ => .refused .noSuchUnit

end Sys2Proof.Machine
end

