-- ==== Sys2Proof/Safety.lean ====
section
/-! DEFINITION. The terms claims are stated in: what a run that has not gone wrong is, the invariant of
the machine, and the filter the commands compute, written as sums (spec/10_state.md R27,
spec/41_delay_line.md R130, R136, spec/42_decimator.md R160, spec/43_interpolator.md R190,
spec/44_host_interface.md R220). -/

namespace Sys2Proof.Machine

/-! ## Outcomes -/

/-- The next state of an outcome, if it has one. -/
def nextState (o : Host.Outcome State Fault Refusal) : Option State :=
  match o with
  | .next s => some s
  | .fault _ => none
  | .refused _ => none

/-- An outcome with its next state, if it has one, changed by `f`. -/
def mapNext (f : State → State) (o : Host.Outcome State Fault Refusal) :
    Host.Outcome State Fault Refusal :=
  match o with
  | .next s => .next (f s)
  | .fault r => .fault r
  | .refused r => .refused r

/-- R220: a run has gone wrong if CVS is 1 at its end (some command was a contract violation, and CVS is
sticky, R237), or if the model gave a transaction no meaning. DESIGN CHOICE (notes/assumptions/21.md): of a
run with a violation and then a reset, which clears CVS, the model goes by CVS at the end and counts it not
gone wrong. -/
def goneWrong (o : Host.Outcome State Fault Refusal) : Bool :=
  match o with
  | .next s => s.status.cvs
  | .fault _ => true
  | .refused _ => true

/-- `k` steps, stopping at the first fault or refusal. -/
def runSteps : Nat → State → Host.Outcome State Fault Refusal
  | 0, s => .next s
  | k + 1, s =>
    match step s with
    | .next t => runSteps k t
    | .fault r => .fault r
    | .refused r => .refused r

/-! ## The invariant -/

/-- R27 for the decimator channel. -/
abbrev State.descriptorInvD (s : State) : Prop :=
  (s.status.liveD = false ∧ s.descD = Descriptor.zero) ∨
  (s.status.liveD = true ∧ validD s.memWords s.descD)

/-- R27 for the interpolator channel. -/
abbrev State.descriptorInvI (s : State) : Prop :=
  (s.status.liveI = false ∧ s.descI = Descriptor.zero) ∨
  (s.status.liveI = true ∧ validI s.memWords s.descI)

/-- R24: CAUSE is 0 exactly where RESP is not 2, and a RESP of 2 has set CVS. -/
abbrev Status.consistent (st : Status) : Prop :=
  (st.cause = .noCause ↔ st.resp ≠ .contractViolation) ∧
  (st.resp = .contractViolation → st.cvs = true)

/-- The memory is in its canonical form and lists no address outside MEM. -/
abbrev State.memoryInv (s : State) : Prop :=
  Memory.wf s.mem ∧ ∀ x ∈ s.mem, x.1 < s.memWords

/-- The invariant of the machine: the parameter is legal (R7), both descriptors are (R27), STATUS is
consistent (R24), and the memory is canonical and inside MEM (R50). -/
abbrev State.Inv (s : State) : Prop :=
  Config.MemWordsLegal s.memWords ∧ s.descriptorInvD ∧ s.descriptorInvI ∧ s.status.consistent ∧
  s.memoryInv

/-! ## The filters, as the spec's formulas -/

/-- R118: the closed form of DOT over `n` terms. -/
def dot (n : Nat) (c x : Nat → Int) : Int := sat16 (rnd (∑ k ∈ Finset.range n, c k * x k))

/-- R130: the word `W[j]` of the window of a RUN: the history, then the input block. -/
def windowWord (st h pIn : Nat) (s : State) (j : Nat) : Sample :=
  if j < h then readWord (st + j) s else readWord (pIn + (j - h)) s

/-- R130: the window of a RUND issued in this state. -/
def windowD (s : State) (j : Nat) : Sample :=
  windowWord s.descD.state.toNat (historyD s.descD) (inputBase s) s j

/-- R130: the window of a RUNI issued in this state. -/
def windowI (s : State) (j : Nat) : Sample :=
  windowWord s.descI.state.toNat (historyI s.descI) (inputBase s) s j

/-- R160: out[i] of a RUND issued in this state. -/
def decimatedSample (s : State) (i : Nat) : Int :=
  dot s.descD.taps.toNat (fun k => memRead (s.descD.coef.toNat + k) s)
    (fun k => s16 (windowD s (i * s.descD.factor.toNat + s.descD.taps.toNat - 1 - k)))

/-- R190: out[n*L + p] of a RUNI issued in this state. -/
def interpolatedSample (s : State) (n p : Nat) : Int :=
  dot (subTaps s.descI) (fun j => memRead (s.descI.coef.toNat + (p + j * s.descI.factor.toNat)) s)
    (fun j => s16 (windowI s (n + subTaps s.descI - 1 - j)))

/-- R136, R163, R193: the word at an address after an accepted RUN with window `w`, state base `st`,
history length `h`, block size `b` and `nOut` outputs at `pOut`: the new history, the appended block,
the outputs, and every other word as before. -/
def wordAfterRun (st h b pOut nOut : Nat) (w : Nat → Sample) (out : Nat → Int) (s : State)
    (a : Nat) : Sample :=
  if st ≤ a ∧ a < st + h then w (b + (a - st))
  else if st + h ≤ a ∧ a < st + h + b then w (a - st)
  else if pOut ≤ a ∧ a < pOut + nOut then w16 (out (a - pOut))
  else readWord a s

/-- The word at an address after an accepted RUND issued in this state (R163). -/
def wordAfterRund (s : State) (a : Nat) : Sample :=
  wordAfterRun s.descD.state.toNat (historyD s.descD) (blockSize s) (outputBase s) (outputsD s)
    (windowD s) (decimatedSample s) s a

/-- The word at an address after an accepted RUNI issued in this state (R193). -/
def wordAfterRuni (s : State) (a : Nat) : Sample :=
  wordAfterRun s.descI.state.toNat (historyI s.descI) (blockSize s) (outputBase s) (outputsI s)
    (windowI s)
    (fun m => interpolatedSample s (m / s.descI.factor.toNat) (m % s.descI.factor.toNat)) s a

/-- R191: the zero-stuffed stream of a sequence: each sample followed by `l - 1` zeros. -/
def stuffed (l : Nat) (z : Nat → Int) (m : Nat) : Int := if m % l = 0 then z (m / l) else 0

/-- R191: the zero-stuffed stream convolved with the full coefficient set, the most recent sample with
c[0], before rounding; the stream is 0 before its first sample. -/
def stuffedConvolution (n l : Nat) (c z : Nat → Int) (m : Nat) : Int :=
  ∑ k ∈ Finset.range n, c k * (if k ≤ m then stuffed l z (m - k) else 0)

/-- R161: a stream convolved with the coefficients at stream index `q`, before rounding; the stream is 0
before its first sample. -/
def streamConvolution (n : Nat) (c z : Nat → Int) (q : Nat) : Int :=
  ∑ k ∈ Finset.range n, c k * (if k ≤ q then z (q - k) else 0)

/-! ## Where a RUN executes normally -/

/-- RUND is accepted (R158) with a committed descriptor (R27) and disjoint regions (R61). -/
abbrev State.runsD (s : State) : Prop :=
  rejectD s = none ∧ validD s.memWords s.descD ∧ (regionsD s).pairwiseDisjoint

/-- RUNI is accepted (R188) with a committed descriptor (R27) and disjoint regions (R61). -/
abbrev State.runsI (s : State) : Prop :=
  rejectI s = none ∧ validI s.memWords s.descI ∧ (regionsI s).pairwiseDisjoint

/-! ## A stream processed in blocks (R165, R195) -/

/-- The host writes `b` to A2 and leaves the rest. -/
def withBlock (b : Nat) (s : State) : State := s.setArgs { s.args with a2 := BitVec.ofNat 32 b }

/-- The host moves the input base on by `i` words and the output base by `o`, so that the next block
lies end to end with the last. -/
def advanceBases (i o : Nat) (s : State) : State :=
  s.setArgs { s.args with a0 := s.args.a0 + BitVec.ofNat 32 i, a1 := s.args.a1 + BitVec.ofNat 32 o }

/-- RUND on each block of a stream in turn, the blocks laid end to end; `none` where a command is not
answered SUCCESS. -/
def feedRund : List Nat → State → Option State
  | [], s => some s
  | b :: bs, s =>
    match execRund (withBlock b s) with
    | .next t =>
      if t.status.resp = .success then
        feedRund bs (advanceBases b (b / s.descD.factor.toNat) t)
      else none
    | .fault _ => none
    | .refused _ => none

/-- RUNI on each block of a stream in turn, the blocks laid end to end; `none` where a command is not
answered SUCCESS. -/
def feedRuni : List Nat → State → Option State
  | [], s => some s
  | b :: bs, s =>
    match execRuni (withBlock b s) with
    | .next t =>
      if t.status.resp = .success then
        feedRuni bs (advanceBases b (b * s.descI.factor.toNat) t)
      else none
    | .fault _ => none
    | .refused _ => none

/-! ## A stream whose blocks the host places as it likes (R137, R165, R195) -/

/-- The `n` words of MEM from `base` on, in order. -/
def words (base n : Nat) (s : State) : List Sample :=
  (List.range n).map (fun j => readWord (base + j) s)

/-- The input block of a RUN issued in this state. -/
def inputBlock (s : State) : List Sample := words (inputBase s) (blockSize s) s

/-- The history words of the decimator descriptor `d`. -/
def historyWordsD (d : Descriptor) (s : State) : List Sample := words d.state.toNat (historyD d) s

/-- The history words of the interpolator descriptor `d`. -/
def historyWordsI (d : Descriptor) (s : State) : List Sample := words d.state.toNat (historyI d) s

/-- The input stream of a sequence of RUNs, each given by the states before and after it. -/
def streamIn (runs : List (State × State)) : List Sample := runs.flatMap (fun r => inputBlock r.1)

/-- A stream through the decimator channel with descriptor `d`: accepted RUNDs, each given by the states
before and after it, from the history `h` to the history `h'`. Between two RUNDs the host may do anything
(refill the input, move the bases, run the other channel) that leaves `d` and the history words (R62). -/
def RundStream (d : Descriptor) : List Sample → List (State × State) → List Sample → Prop
  | h, [], h' => h' = h
  | h, (s, t) :: runs, h' =>
    s.descD = d ∧ historyWordsD d s = h ∧ s.runsD ∧ exec .rund s = .next t ∧
      RundStream d (historyWordsD d t) runs h'

/-- A stream through the interpolator channel with descriptor `d`, as `RundStream`. -/
def RuniStream (d : Descriptor) : List Sample → List (State × State) → List Sample → Prop
  | h, [], h' => h' = h
  | h, (s, t) :: runs, h' =>
    s.descI = d ∧ historyWordsI d s = h ∧ s.runsI ∧ exec .runi s = .next t ∧
      RuniStream d (historyWordsI d t) runs h'

/-- The output stream of a sequence of RUNDs, each block read after its command. -/
def rundStreamOut (runs : List (State × State)) : List Sample :=
  runs.flatMap (fun r => words (outputBase r.1) (outputsD r.1) r.2)

/-- The output stream of a sequence of RUNIs, each block read after its command. -/
def runiStreamOut (runs : List (State × State)) : List Sample :=
  runs.flatMap (fun r => words (outputBase r.1) (outputsI r.1) r.2)

end Sys2Proof.Machine
end

