-- ==== Sys2Proof/Certificates/Slice0/Obligations.lean ====
section
/-! DEFINITION. The statements for the provers. Each docstring names the rules of spec/ it formalises. -/

open Sys2Proof Sys2Proof.Machine

/-! ## Command words -/

/-- R84: the four words of the opcode table and their CH and FN columns. -/
def Obligations.TableWordsDecode : Prop :=
  decode 0x00000001#32 = .ok .initd ∧ fieldsOfWord 0x00000001#32 = ⟨0, 0, 1⟩ ∧
  decode 0x00000002#32 = .ok .rund ∧ fieldsOfWord 0x00000002#32 = ⟨0, 0, 2⟩ ∧
  decode 0x00000011#32 = .ok .initi ∧ fieldsOfWord 0x00000011#32 = ⟨0, 1, 1⟩ ∧
  decode 0x00000012#32 = .ok .runi ∧ fieldsOfWord 0x00000012#32 = ⟨0, 1, 2⟩

/-- R84: a word selects a command only by exact equality with one of four values; and R82's fields agree
with it: the encoder, written from the fields, gives back exactly that word. -/
def Obligations.DecodeSelectsByExactEquality : Prop :=
  (∀ w : Word,
    (decode w = .ok .initd ↔ w = 0x00000001#32) ∧ (decode w = .ok .rund ↔ w = 0x00000002#32) ∧
    (decode w = .ok .initi ↔ w = 0x00000011#32) ∧ (decode w = .ok .runi ↔ w = 0x00000012#32)) ∧
  (∀ i : Instr, i.wf = true → decode (encode i) = .ok i) ∧
  (∀ (w : Word) (i : Instr), decode w = .ok i → encode i = w)

/-- R82: every word is its three fields and every three fields are one word, no bit dropped; and a word
whose fields are legal is exactly a word that decodes. -/
def Obligations.FieldsAndWordsAgree : Prop :=
  (∀ w : Word, wordOfFields (fieldsOfWord w) = w) ∧
  (∀ f : CmdFields, fieldsOfWord (wordOfFields f) = f) ∧
  (∀ w : Word, (fieldsOfWord w).wf = true ↔ ∃ i, decode w = .ok i)

/-- R88: every word other than the four is illegal, its ZERO field not 0 or its FN neither 1 nor 2; and
writing it to CMD stores it, is the contract violation of cause 1, and changes nothing else. -/
def Obligations.IllegalWordIsRejectedWhole : Prop :=
  ∀ (w : Word) (s : State),
    ((w ≠ 0x00000001#32 ∧ w ≠ 0x00000002#32 ∧ w ≠ 0x00000011#32 ∧ w ≠ 0x00000012#32) ↔
      ((fieldsOfWord w).zero ≠ 0 ∨ ((fieldsOfWord w).fn ≠ 1 ∧ (fieldsOfWord w).fn ≠ 2))) ∧
    ((w ≠ 0x00000001#32 ∧ w ≠ 0x00000002#32 ∧ w ≠ 0x00000011#32 ∧ w ≠ 0x00000012#32) →
      hostWriteReg 0x14#32 w s = .next { s with
        cmd := w
        status := ⟨.contractViolation, .illegalCommand, s.status.liveD, s.status.liveI, true⟩ })

/-! ## The step and the host interface -/

/-- R213: when the next event is the write of a command word to CMD, the step is the command itself, on
the state with the word stored in CMD and the event taken; a presented word is such an event. -/
def Obligations.StepRunsTheDecodedCommand : Prop :=
  (∀ (s : State) (w : Word) (i : Instr) (rest : List Event),
    s.events = .host (.hwr 0x14#32 w) :: rest → decode w = .ok i →
    step s = exec i { s with cmd := w, events := rest }) ∧
  (∀ (s : State) (w : Word) (i : Instr), decode w = .ok i →
    step (s.withFetchWord 32 w.toNat) = exec i { s with cmd := w })

/-- R64, R220, R252: events are performed one at a time in the order they come, and with none pending
the unit is idle and keeps all its state. That pending events stand in the state and that an idle machine
steps to itself is the model's choice (log entries 4 and 5, DESIGN CHOICE). -/
def Obligations.StepTakesEventsInOrder : Prop :=
  ∀ s : State,
    (s.events = [] → step s = .next s) ∧
    (∀ (e : Event) (rest : List Event), s.events = e :: rest →
      step s = perform e { s with events := rest })

/-- R211: HWR, offset by offset: an argument register takes the data, CMD takes it and runs it, every
other offset does nothing. -/
def Obligations.RegisterWriteEffect : Prop :=
  ∀ (off d : Word) (s : State),
    hostWriteReg off d s =
      if off = 0x00#32 then .next { s with args := { s.args with a0 := d } }
      else if off = 0x04#32 then .next { s with args := { s.args with a1 := d } }
      else if off = 0x08#32 then .next { s with args := { s.args with a2 := d } }
      else if off = 0x0C#32 then .next { s with args := { s.args with a3 := d } }
      else if off = 0x10#32 then .next { s with args := { s.args with a4 := d } }
      else if off = 0x14#32 then writeCommand d s
      else .next s

/-- R212: HRD, offset by offset: the value goes to the host, and the unit and MEM do not change. -/
def Obligations.RegisterReadValue : Prop :=
  ∀ (off : Word) (s : State),
    hostReadReg off s = .next { s with
      returned := .reg
        (if off = 0x00#32 then s.args.a0 else if off = 0x04#32 then s.args.a1
        else if off = 0x08#32 then s.args.a2 else if off = 0x0C#32 then s.args.a3
        else if off = 0x10#32 then s.args.a4 else if off = 0x14#32 then s.cmd
        else if off = 0x18#32 then statusWord s.status
        else if off = 0x20#32 then s.descD.taps else if off = 0x24#32 then s.descD.factor
        else if off = 0x28#32 then s.descD.coef else if off = 0x2C#32 then s.descD.state
        else if off = 0x30#32 then s.descD.maxblk
        else if off = 0x40#32 then s.descI.taps else if off = 0x44#32 then s.descI.factor
        else if off = 0x48#32 then s.descI.coef else if off = 0x4C#32 then s.descI.state
        else if off = 0x50#32 then s.descI.maxblk
        else 0#32) :: s.returned }

/-- R214: reserved offsets read 0 and ignore writes, with no violation and no change of STATUS. -/
def Obligations.ReservedOffsetsAreInert : Prop :=
  ∀ (off d : Word) (s : State),
    (off.toNat % 4 ≠ 0 ∨ off = 0x1C#32 ∨ off = 0x34#32 ∨ off = 0x38#32 ∨ off = 0x3C#32 ∨
      0x54 ≤ off.toNat) →
    hostReadReg off s = .next { s with returned := .reg 0#32 :: s.returned } ∧
    hostWriteReg off d s = .next s

/-- R215: writes to STATUS and to the descriptor mirrors do nothing; no host transaction changes a
descriptor but a CMD write of a successful initialisation, nor STATUS but a CMD write. -/
def Obligations.ReadOnlyRegistersKeepTheirValue : Prop :=
  (∀ (off d : Word) (s : State),
    (off = 0x18#32 ∨ off = 0x20#32 ∨ off = 0x24#32 ∨ off = 0x28#32 ∨ off = 0x2C#32 ∨ off = 0x30#32 ∨
      off = 0x40#32 ∨ off = 0x44#32 ∨ off = 0x48#32 ∨ off = 0x4C#32 ∨ off = 0x50#32) →
    hostWriteReg off d s = .next s) ∧
  (∀ (x : Transaction) (s t : State), transact x s = .next t →
    (t.descD ≠ s.descD → x = .hwr 0x14#32 0x00000001#32 ∧ t.status.resp = .success) ∧
    (t.descI ≠ s.descI → x = .hwr 0x14#32 0x00000011#32 ∧ t.status.resp = .success) ∧
    (t.status ≠ s.status → ∃ d, x = .hwr 0x14#32 d))

/-- R216: MWR stores the word, changes no register and no other word, and outside MEM is refused (U5); and
a register access of a width other than 32 bits is refused (R210, U6). Both refusals are log entry 10
(DEDUCED). -/
def Obligations.HostMemoryWriteEffect : Prop :=
  (∀ (a : Word) (w : Sample) (s : State),
    (a.toNat < s.memWords → ∃ t, hostWriteMem a w s = .next t ∧ t = { s with mem := t.mem } ∧
      readWord a.toNat t = w ∧ ∀ b, b ≠ a.toNat → readWord b t = readWord b s) ∧
    (¬ a.toNat < s.memWords → hostWriteMem a w s = .refused .addressOutsideMem)) ∧
  (∀ (off : Word) (w : OddWidth) (rest : List Event) (s : State), s.events = .oddAccess off w :: rest →
    step s = .refused .registerAccessWidth)

/-- R217: MRD gives the host the word and has no other effect. Outside MEM it is refused (R216, U5, log
entry 10, DEDUCED). -/
def Obligations.HostMemoryReadValue : Prop :=
  ∀ (a : Word) (s : State),
    (a.toNat < s.memWords →
      hostReadMem a s =
        .next { s with returned := .word (readWord a.toNat s) :: s.returned }) ∧
    (¬ a.toNat < s.memWords → hostReadMem a s = .refused .addressOutsideMem)

/-- R91: the expansion of each command pseudo-instruction, sent by the host, writes the registers the
command names and then runs it. -/
def Obligations.PseudoInstructionsRunTheirCommand : Prop :=
  ∀ (s : State) (v0 v1 v2 v3 v4 : Int), s.events = [] →
    runSteps 6 (loadScript (expand (.initd v0 v1 v2 v3 v4)) s) =
      exec .initd { s with args := ⟨u32 v0, u32 v1, u32 v2, u32 v3, u32 v4⟩, cmd := 0x00000001#32 } ∧
    runSteps 4 (loadScript (expand (.rund v0 v1 v2)) s) =
      exec .rund { s with
        args := ⟨u32 v0, u32 v1, u32 v2, s.args.a3, s.args.a4⟩, cmd := 0x00000002#32 } ∧
    runSteps 6 (loadScript (expand (.initi v0 v1 v2 v3 v4)) s) =
      exec .initi { s with args := ⟨u32 v0, u32 v1, u32 v2, u32 v3, u32 v4⟩, cmd := 0x00000011#32 } ∧
    runSteps 4 (loadScript (expand (.runi v0 v1 v2)) s) =
      exec .runi { s with
        args := ⟨u32 v0, u32 v1, u32 v2, s.args.a3, s.args.a4⟩, cmd := 0x00000012#32 }

/-- R91: `fill addr, v0, v1, ...` and `zero addr, n`, sent by the host, place the values, or n zeros, at
consecutive words inside MEM and change nothing else. For a value outside -32768..32767 the word is the
model's choice (log entry 20, DESIGN CHOICE: `w16` modulo 2^16; R9 defines it inside that range only). -/
def Obligations.FillPlacesTheWords : Prop :=
  (∀ (s : State) (a : Nat) (vs : List Int), s.events = [] →
    a + vs.length ≤ s.memWords → s.memWords ≤ 4294967296 →
    ∃ t, runSteps vs.length (loadScript (expand (.fill (a : Int) vs)) s) = .next t ∧
      t = { s with mem := t.mem } ∧
      (∀ (i : Nat) (v : Int), vs[i]? = some v → readWord (a + i) t = w16 v) ∧
      (∀ b, (b < a ∨ a + vs.length ≤ b) → readWord b t = readWord b s)) ∧
  (∀ (s : State) (a n : Nat), s.events = [] → a + n ≤ s.memWords → s.memWords ≤ 4294967296 →
    ∃ t, runSteps n (loadScript (expand (.zero (a : Int) n)) s) = .next t ∧
      t = { s with mem := t.mem } ∧
      (∀ i, i < n → readWord (a + i) t = 0#16) ∧
      (∀ b, (b < a ∨ a + n ≤ b) → readWord b t = readWord b s))

/-! ## STATUS and reset -/

/-- R24, R230, R235: the STATUS word, field by field: RESP with the numbers of R230, CAUSE with the numbers
of R235, LIVE_D, LIVE_I, CVS, and 0 in every other bit. -/
def Obligations.StatusWordFields : Prop :=
  ∀ st : Status,
    (statusWord st).extractLsb' 0 2 =
      (match st.resp with
        | .success => 0#2
        | .invalidParameter => 1#2
        | .contractViolation => 2#2) ∧
    (statusWord st).extractLsb' 2 2 = 0#2 ∧
    (statusWord st).extractLsb' 4 4 =
      (match st.cause with
        | .noCause => 0#4
        | .illegalCommand => 1#4
        | .notLive => 2#4
        | .blockNotMultiple => 3#4
        | .blockTooLarge => 4#4
        | .nullBuffer => 5#4
        | .addressRange => 6#4) ∧
    (statusWord st).getLsbD 8 = st.liveD ∧ (statusWord st).getLsbD 9 = st.liveI ∧
    (statusWord st).getLsbD 10 = st.cvs ∧ (statusWord st).extractLsb' 11 21 = 0#21

/-- R36: after reset every register reads 0, both channels are not live, the last response is SUCCESS
with no cause and no violation recorded, and MEM holds in every word its unspecified value (the free
value of log entry 1). -/
def Obligations.ResetRegistersAreZero : Prop :=
  State.reset.args = ⟨0, 0, 0, 0, 0⟩ ∧ State.reset.cmd = 0 ∧
  State.reset.status = ⟨.success, .noCause, false, false, false⟩ ∧
  State.reset.descD = ⟨0, 0, 0, 0, 0⟩ ∧ State.reset.descI = ⟨0, 0, 0, 0, 0⟩ ∧ State.reset.acc = 0 ∧
  (∀ off : Word, readRegister off State.reset = 0#32) ∧
  (∀ a : Nat, readWord a State.reset = Config.powerUpWord a)

/-- R260, R261: the reset input gives every register its reset value and leaves MEM alone; it is the only
event that clears CVS and the only one that makes a live channel not live. That the pending events, the
returned data and MEM_WORDS stay is the model's choice (log entry 13, DESIGN CHOICE). -/
def Obligations.ResetEventEffect : Prop :=
  (∀ s : State, perform .reset s = .next
    { s with args := ⟨0, 0, 0, 0, 0⟩, cmd := 0
             status := ⟨.success, .noCause, false, false, false⟩
             descD := ⟨0, 0, 0, 0, 0⟩, descI := ⟨0, 0, 0, 0, 0⟩, acc := 0 }) ∧
  (∀ (e : Event) (s t : State), perform e s = .next t → e ≠ .reset →
    (s.status.cvs = true → t.status.cvs = true) ∧
    (s.status.liveD = true → t.status.liveD = true) ∧
    (s.status.liveI = true → t.status.liveI = true))

/-- R231: a SUCCESS or INVALID_PARAMETER answer has CAUSE 0 and leaves CVS; a violation sets CVS and a
cause; the live bits change only by a successful initialisation of that channel; CVS is only ever
set. -/
def Obligations.ResponsesWriteStatus : Prop :=
  ∀ (i : Instr) (s t : State), exec i s = .next t →
    (t.status.resp ≠ .contractViolation →
      t.status.cause = .noCause ∧ t.status.cvs = s.status.cvs) ∧
    (t.status.resp = .contractViolation →
      t.status.cause ≠ .noCause ∧ t.status.cvs = true) ∧
    (t.status.liveD ≠ s.status.liveD → i = .initd ∧ t.status.resp = .success) ∧
    (t.status.liveI ≠ s.status.liveI → i = .initi ∧ t.status.resp = .success) ∧
    (s.status.cvs = true → t.status.cvs = true)

/-- R230, R233, R235: INITD and INITI answer SUCCESS or INVALID_PARAMETER, RUND and RUNI answer SUCCESS or
a violation, with cause 3 from RUND only and cause 1 from neither. -/
def Obligations.WhichCommandGivesWhichResponse : Prop :=
  ∀ (i : Instr) (s t : State), exec i s = .next t →
    ((i = .initd ∨ i = .initi) →
      t.status.resp = .success ∨ t.status.resp = .invalidParameter) ∧
    ((i = .rund ∨ i = .runi) →
      t.status.resp = .success ∨ t.status.resp = .contractViolation) ∧
    (t.status.cause = .blockNotMultiple → i = .rund) ∧ t.status.cause ≠ .illegalCommand

/-- R237: CVS has no effect on the execution of any command: setting it beforehand changes nothing in
the outcome but CVS itself. -/
def Obligations.CvsHasNoEffectOnCommands : Prop :=
  ∀ (i : Instr) (s : State),
    exec i { s with status := { s.status with cvs := true } } =
      mapNext (fun t => { t with status := { t.status with cvs := true } }) (exec i s)

/-- R236: a command answered with a contract violation changes RESP, CAUSE and CVS and nothing else, and
reads and writes no word of MEM. -/
def Obligations.ViolationChangesOnlyStatus : Prop :=
  ∀ (i : Instr) (s t : State), exec i s = .next t → t.status.resp = .contractViolation →
    t = { s with status :=
      ⟨.contractViolation, t.status.cause, s.status.liveD, s.status.liveI, true⟩ } ∧
    ∀ m : Memory, exec i { s with mem := m } = .next { t with mem := m }

/-! ## Initialisation -/

/-- R153, R155: where the nine conditions hold INITD commits the five operands and LIVE_D, answers
SUCCESS, and changes nothing else. -/
def Obligations.InitdCommitsValidOperands : Prop :=
  ∀ s : State,
    1 ≤ s.args.a1.toNat → 1 ≤ s.args.a0.toNat → s.args.a0.toNat % s.args.a1.toNat = 0 →
    s.args.a2.toNat ≠ 0 → s.args.a3.toNat ≠ 0 →
    1 ≤ s.args.a4.toNat → s.args.a4.toNat % s.args.a1.toNat = 0 →
    s.args.a2.toNat + s.args.a0.toNat ≤ s.memWords →
    s.args.a3.toNat + s.args.a0.toNat + s.args.a4.toNat - 1 ≤ s.memWords →
    exec .initd s = .next { s with
      descD := ⟨s.args.a0, s.args.a1, s.args.a2, s.args.a3, s.args.a4⟩
      status := ⟨.success, .noCause, true, s.status.liveI, s.status.cvs⟩ }

/-- R154: where one of the nine conditions fails INITD answers INVALID_PARAMETER and commits nothing. -/
def Obligations.InitdFailureCommitsNothing : Prop :=
  ∀ s : State,
    ¬ (1 ≤ s.args.a1.toNat ∧ 1 ≤ s.args.a0.toNat ∧ s.args.a0.toNat % s.args.a1.toNat = 0 ∧
      s.args.a2.toNat ≠ 0 ∧ s.args.a3.toNat ≠ 0 ∧
      1 ≤ s.args.a4.toNat ∧ s.args.a4.toNat % s.args.a1.toNat = 0 ∧
      s.args.a2.toNat + s.args.a0.toNat ≤ s.memWords ∧
      s.args.a3.toNat + s.args.a0.toNat + s.args.a4.toNat - 1 ≤ s.memWords) →
    exec .initd s = .next { s with
      status := ⟨.invalidParameter, .noCause, s.status.liveD, s.status.liveI, s.status.cvs⟩ }

/-- R183, R185: where the eight conditions hold INITI commits the five operands, L from A0 and T from A1,
and LIVE_I, answers SUCCESS, and changes nothing else. -/
def Obligations.InitiCommitsValidOperands : Prop :=
  ∀ s : State,
    1 ≤ s.args.a0.toNat → 1 ≤ s.args.a1.toNat → s.args.a1.toNat % s.args.a0.toNat = 0 →
    s.args.a2.toNat ≠ 0 → s.args.a3.toNat ≠ 0 → 1 ≤ s.args.a4.toNat →
    s.args.a2.toNat + s.args.a1.toNat ≤ s.memWords →
    s.args.a3.toNat + s.args.a1.toNat / s.args.a0.toNat + s.args.a4.toNat - 1 ≤ s.memWords →
    exec .initi s = .next { s with
      descI := ⟨s.args.a1, s.args.a0, s.args.a2, s.args.a3, s.args.a4⟩
      status := ⟨.success, .noCause, s.status.liveD, true, s.status.cvs⟩ }

/-- R184: where one of the eight conditions fails INITI answers INVALID_PARAMETER and commits nothing. -/
def Obligations.InitiFailureCommitsNothing : Prop :=
  ∀ s : State,
    ¬ (1 ≤ s.args.a0.toNat ∧ 1 ≤ s.args.a1.toNat ∧ s.args.a1.toNat % s.args.a0.toNat = 0 ∧
      s.args.a2.toNat ≠ 0 ∧ s.args.a3.toNat ≠ 0 ∧ 1 ≤ s.args.a4.toNat ∧
      s.args.a2.toNat + s.args.a1.toNat ≤ s.memWords ∧
      s.args.a3.toNat + s.args.a1.toNat / s.args.a0.toNat + s.args.a4.toNat - 1 ≤ s.memWords) →
    exec .initi s = .next { s with
      status := ⟨.invalidParameter, .noCause, s.status.liveD, s.status.liveI, s.status.cvs⟩ }

/-! ## The runs: acceptance -/

/-- R158: RUND is rejected with the cause of the first failing line, and is answered no violation where
every line holds. -/
def Obligations.RundAcceptance : Prop :=
  ∀ s : State,
    let b := s.args.a2.toNat
    let m := s.descD.factor.toNat
    let rejected : Option Cause :=
      if ¬ s.status.liveD = true then some .notLive
      else if ¬ b % m = 0 then some .blockNotMultiple
      else if ¬ b ≤ s.descD.maxblk.toNat then some .blockTooLarge
      else if ¬ (s.args.a0.toNat ≠ 0 ∧ s.args.a1.toNat ≠ 0) then some .nullBuffer
      else if ¬ (s.args.a0.toNat + b ≤ s.memWords ∧ s.args.a1.toNat + b / m ≤ s.memWords) then
        some .addressRange
      else none
    (∀ c, rejected = some c → exec .rund s = .next { s with status :=
      ⟨.contractViolation, c, s.status.liveD, s.status.liveI, true⟩ }) ∧
    (rejected = none → ∀ t, exec .rund s = .next t → t.status.resp = .success)

/-- R188: RUNI is rejected with the cause of the first failing line, and is answered no violation where
every line holds; B * L is formed in unbounded integers. -/
def Obligations.RuniAcceptance : Prop :=
  ∀ s : State,
    let b := s.args.a2.toNat
    let l := s.descI.factor.toNat
    let rejected : Option Cause :=
      if ¬ s.status.liveI = true then some .notLive
      else if ¬ b ≤ s.descI.maxblk.toNat then some .blockTooLarge
      else if ¬ (s.args.a0.toNat ≠ 0 ∧ s.args.a1.toNat ≠ 0) then some .nullBuffer
      else if ¬ (s.args.a0.toNat + b ≤ s.memWords ∧ s.args.a1.toNat + b * l ≤ s.memWords) then
        some .addressRange
      else none
    (∀ c, rejected = some c → exec .runi s = .next { s with status :=
      ⟨.contractViolation, c, s.status.liveD, s.status.liveI, true⟩ }) ∧
    (rejected = none → ∀ t, exec .runi s = .next t → t.status.resp = .success)

/-- R61: an accepted RUN of a committed descriptor whose four regions are not pairwise disjoint has no
defined result, and the model refuses it. -/
def Obligations.OverlappingRegionsAreRefused : Prop :=
  ∀ s : State,
    (rejectD s = none → validD s.memWords s.descD → ¬ (regionsD s).pairwiseDisjoint →
      exec .rund s = .refused .regionsOverlap) ∧
    (rejectI s = none → validI s.memWords s.descI → ¬ (regionsI s).pairwiseDisjoint →
      exec .runi s = .refused .regionsOverlap)

/-- The model's own stop (notes/assumptions/6.md): an accepted RUN in a state whose live descriptor no
initialisation would have committed, which R27 says is never reached, is a fault; and in every state
that meets the invariant no command faults and only overlapping regions are refused (R52, R239). -/
def Obligations.CommandsStopOnlyOnOverlap : Prop :=
  (∀ s : State, rejectD s = none → ¬ validD s.memWords s.descD →
    exec .rund s = .fault .descriptorNotLegal) ∧
  (∀ s : State, rejectI s = none → ¬ validI s.memWords s.descI →
    exec .runi s = .fault .descriptorNotLegal) ∧
  (∀ (i : Instr) (s : State), s.Inv →
    (∃ t, exec i s = .next t) ∨
    (i = .rund ∧ rejectD s = none ∧ ¬ (regionsD s).pairwiseDisjoint ∧
      exec i s = .refused .regionsOverlap) ∨
    (i = .runi ∧ rejectI s = none ∧ ¬ (regionsI s).pairwiseDisjoint ∧
      exec i s = .refused .regionsOverlap))

/-! ## The runs: results -/

/-- R163 with R136 and R160: an accepted RUND answers SUCCESS; every word of MEM is the new history, the
appended block, an output of R160, or as before; every register but ACC and STATUS is unchanged. -/
def Obligations.RundResult : Prop :=
  ∀ s : State, s.runsD → ∃ t, exec .rund s = .next t ∧
    (∀ a, readWord a t = wordAfterRund s a) ∧
    t = { s with
      acc := t.acc, mem := t.mem
      status := ⟨.success, .noCause, s.status.liveD, s.status.liveI, s.status.cvs⟩ }

/-- R193 with R136 and R190: an accepted RUNI answers SUCCESS; every word of MEM is the new history, the
appended block, an output of R190, or as before; every register but ACC and STATUS is unchanged. -/
def Obligations.RuniResult : Prop :=
  ∀ s : State, s.runsI → ∃ t, exec .runi s = .next t ∧
    (∀ a, readWord a t = wordAfterRuni s a) ∧
    t = { s with
      acc := t.acc, mem := t.mem
      status := ⟨.success, .noCause, s.status.liveD, s.status.liveI, s.status.cvs⟩ }

/-- R160, R162: RUND stores B div M outputs, output i the rounded and clamped sum of c[k] times
W[i*M + T - 1 - k], written out, the window being the history and then the input block (R130). -/
def Obligations.RundOutputs : Prop :=
  ∀ s t : State, s.runsD → exec .rund s = .next t →
    ∀ i, i < s.args.a2.toNat / s.descD.factor.toNat →
      let w : Nat → Int := fun j =>
        if j < s.descD.taps.toNat - 1 then memRead (s.descD.state.toNat + j) s
        else memRead (s.args.a0.toNat + (j - (s.descD.taps.toNat - 1))) s
      memRead (s.args.a1.toNat + i) t =
        clamp (((∑ k ∈ Finset.range s.descD.taps.toNat,
            memRead (s.descD.coef.toNat + k) s *
              w (i * s.descD.factor.toNat + s.descD.taps.toNat - 1 - k)) + 16384) / 32768)
          (-32768) 32767

/-- R190, R192: RUNI stores B * L outputs, output n*L + p the rounded and clamped sum of c[p + j*L] times
W[n + P - 1 - j], written out, the window being the history and then the input block (R130). -/
def Obligations.RuniOutputs : Prop :=
  ∀ s t : State, s.runsI → exec .runi s = .next t →
    let taps := s.descI.taps.toNat / s.descI.factor.toNat
    ∀ n p, n < s.args.a2.toNat → p < s.descI.factor.toNat →
      let w : Nat → Int := fun j =>
        if j < taps - 1 then memRead (s.descI.state.toNat + j) s
        else memRead (s.args.a0.toNat + (j - (taps - 1))) s
      memRead (s.args.a1.toNat + (n * s.descI.factor.toNat + p)) t =
        clamp (((∑ j ∈ Finset.range taps,
            memRead (s.descI.coef.toNat + (p + j * s.descI.factor.toNat)) s *
              w (n + taps - 1 - j)) + 16384) / 32768)
          (-32768) 32767

/-- The frame of RUND, whatever it answers next: no register but ACC and RESP, CAUSE and CVS of STATUS
changes, and every word outside STATE (H + B words from D.STATE) and OUT (B div M words from A1) is as
it was. -/
def Obligations.RundFrame : Prop :=
  ∀ s t : State, exec .rund s = .next t →
    t.args = s.args ∧ t.cmd = s.cmd ∧ t.descD = s.descD ∧ t.descI = s.descI ∧
    t.status.liveD = s.status.liveD ∧ t.status.liveI = s.status.liveI ∧
    t.memWords = s.memWords ∧ t.events = s.events ∧ t.returned = s.returned ∧
    ∀ a, ¬ (s.descD.state.toNat ≤ a ∧
        a < s.descD.state.toNat + (historyD s.descD + blockSize s)) →
      ¬ (outputBase s ≤ a ∧ a < outputBase s + outputsD s) → readWord a t = readWord a s

/-- The frame of RUNI, whatever it answers next: no register but ACC and RESP, CAUSE and CVS of STATUS
changes, and every word outside STATE (H + B words from I.STATE) and OUT (B * L words from A1) is as it
was. -/
def Obligations.RuniFrame : Prop :=
  ∀ s t : State, exec .runi s = .next t →
    t.args = s.args ∧ t.cmd = s.cmd ∧ t.descD = s.descD ∧ t.descI = s.descI ∧
    t.status.liveD = s.status.liveD ∧ t.status.liveI = s.status.liveI ∧
    t.memWords = s.memWords ∧ t.events = s.events ∧ t.returned = s.returned ∧
    ∀ a, ¬ (s.descI.state.toNat ≤ a ∧
        a < s.descI.state.toNat + (historyI s.descI + blockSize s)) →
      ¬ (outputBase s ≤ a ∧ a < outputBase s + outputsI s) → readWord a t = readWord a s

/-- R22: no command writes any argument register, and a run ignores A3 and A4 (R86). -/
def Obligations.ArgumentRegistersAreOnlyRead : Prop :=
  (∀ (i : Instr) (s t : State), exec i s = .next t → t.args = s.args) ∧
  (∀ (i : Instr) (s : State) (v3 v4 : Word), (i = .rund ∨ i = .runi) →
    exec i { s with args := { s.args with a3 := v3, a4 := v4 } } =
      mapNext (fun t => { t with args := { t.args with a3 := v3, a4 := v4 } }) (exec i s))

/-- R138: a rejected RUN and an initialisation, accepted or not, read and write no word of MEM. -/
def Obligations.OnlyAcceptedRunsTouchMemory : Prop :=
  ∀ (i : Instr) (s t : State), exec i s = .next t →
    (i = .initd ∨ i = .initi ∨ t.status.resp ≠ .success) →
    t.mem = s.mem ∧ ∀ m : Memory, exec i { s with mem := m } = .next { t with mem := m }

/-! ## The delay line -/

/-- R136: the state region after an accepted RUN of either channel: for j < H the window word W[B + j],
for H ≤ j < H + B the window word W[j], and from H + B on as before, outside the words OUT stores (R60,
R163). The second and the third line are the spec's own decision (D9), not the source's promise. -/
def Obligations.StateRegionAfterRun : Prop :=
  ∀ s t : State,
    (s.runsD → exec .rund s = .next t →
      (∀ j, j < historyD s.descD →
        readWord (s.descD.state.toNat + j) t = windowD s (blockSize s + j)) ∧
      (∀ j, historyD s.descD ≤ j → j < historyD s.descD + blockSize s →
        readWord (s.descD.state.toNat + j) t = windowD s j) ∧
      (∀ j, historyD s.descD + blockSize s ≤ j →
        ¬ (outputBase s ≤ s.descD.state.toNat + j ∧
          s.descD.state.toNat + j < outputBase s + outputsD s) →
        readWord (s.descD.state.toNat + j) t = readWord (s.descD.state.toNat + j) s)) ∧
    (s.runsI → exec .runi s = .next t →
      (∀ j, j < historyI s.descI →
        readWord (s.descI.state.toNat + j) t = windowI s (blockSize s + j)) ∧
      (∀ j, historyI s.descI ≤ j → j < historyI s.descI + blockSize s →
        readWord (s.descI.state.toNat + j) t = windowI s j) ∧
      (∀ j, historyI s.descI + blockSize s ≤ j →
        ¬ (outputBase s ≤ s.descI.state.toNat + j ∧
          s.descI.state.toNat + j < outputBase s + outputsI s) →
        readWord (s.descI.state.toNat + j) t = readWord (s.descI.state.toNat + j) s))

/-- R137: after any number of accepted RUNs of a channel, the host free between them but for the descriptor
and the history words (R62), the history words are the last H elements of Z, the history before the first
followed by all the blocks; and the window of the next RUN is those elements followed by its block. -/
def Obligations.HistoryIsEndOfStream : Prop :=
  (∀ (d : Descriptor) (h h' : List Sample) (runs : List (State × State)), RundStream d h runs h' →
    h' = (h ++ streamIn runs).drop (streamIn runs).length ∧
    ∀ s : State, s.descD = d → historyWordsD d s = h' →
      (List.range (historyD d + blockSize s)).map (windowD s) =
        (h ++ streamIn runs).drop (streamIn runs).length ++ inputBlock s) ∧
  (∀ (d : Descriptor) (h h' : List Sample) (runs : List (State × State)), RuniStream d h runs h' →
    h' = (h ++ streamIn runs).drop (streamIn runs).length ∧
    ∀ s : State, s.descI = d → historyWordsI d s = h' →
      (List.range (historyI d + blockSize s)).map (windowI s) =
        (h ++ streamIn runs).drop (streamIn runs).length ++ inputBlock s)

/-- R164, R194, the row B = 0: an accepted RUN of an empty block leaves every word of MEM as it was. -/
def Obligations.EmptyBlockLeavesMemory : Prop :=
  ∀ s t : State, s.args.a2 = 0 →
    (s.runsD → exec .rund s = .next t → t.status.resp = .success ∧ ∀ a, readWord a t = readWord a s) ∧
    (s.runsI → exec .runi s = .next t → t.status.resp = .success ∧ ∀ a, readWord a t = readWord a s)

/-! ## The filters -/

/-- R165: a stream processed by one RUND, or by a sequence of accepted RUNDs whose blocks sum to it, gives
bit-identical outputs and the same final history: where the blocks lie end to end in MEM and the host only
moves the bases; and for any two sequences of accepted RUNDs on one stream from one history, however the
host places each block and its outputs (it may refill one input buffer), the coefficients kept in place. -/
def Obligations.RundContinuity : Prop :=
  (∀ (s t u : State) (bs : List Nat),
    Config.MemWordsLegal s.memWords → bs.sum < 4294967296 →
    exec .rund (withBlock bs.sum s) = .next u → u.status.resp = .success →
    feedRund bs s = some t →
    (∀ i, i < bs.sum / s.descD.factor.toNat →
      readWord (outputBase s + i) t = readWord (outputBase s + i) u) ∧
    (∀ j, j < historyD s.descD →
      readWord (s.descD.state.toNat + j) t = readWord (s.descD.state.toNat + j) u)) ∧
  (∀ (d : Descriptor) (c : Nat → Sample) (h h₁ h₂ : List Sample) (runs₁ runs₂ : List (State × State)),
    RundStream d h runs₁ h₁ → RundStream d h runs₂ h₂ →
    (∀ r ∈ runs₁ ++ runs₂, ∀ k, k < d.taps.toNat → readWord (d.coef.toNat + k) r.1 = c k) →
    streamIn runs₁ = streamIn runs₂ →
    rundStreamOut runs₁ = rundStreamOut runs₂ ∧ h₁ = h₂)

/-- R195: a stream processed by one RUNI, or by a sequence of accepted RUNIs whose blocks sum to it, gives
bit-identical outputs and the same final history: where the blocks lie end to end in MEM and the host only
moves the bases; and for any two sequences of accepted RUNIs on one stream from one history, however the
host places each block and its outputs (it may refill one input buffer), the coefficients kept in place. -/
def Obligations.RuniContinuity : Prop :=
  (∀ (s t u : State) (bs : List Nat),
    Config.MemWordsLegal s.memWords → bs.sum < 4294967296 →
    exec .runi (withBlock bs.sum s) = .next u → u.status.resp = .success →
    feedRuni bs s = some t →
    (∀ i, i < bs.sum * s.descI.factor.toNat →
      readWord (outputBase s + i) t = readWord (outputBase s + i) u) ∧
    (∀ j, j < historyI s.descI →
      readWord (s.descI.state.toNat + j) t = readWord (s.descI.state.toNat + j) u)) ∧
  (∀ (d : Descriptor) (c : Nat → Sample) (h h₁ h₂ : List Sample) (runs₁ runs₂ : List (State × State)),
    RuniStream d h runs₁ h₁ → RuniStream d h runs₂ h₂ →
    (∀ r ∈ runs₁ ++ runs₂, ∀ k, k < d.taps.toNat → readWord (d.coef.toNat + k) r.1 = c k) →
    streamIn runs₁ = streamIn runs₂ →
    runiStreamOut runs₁ = runiStreamOut runs₂ ∧ h₁ = h₂)

/-- R191: from a zero history, the outputs of RUNI are those of convolving the zero-stuffed input with
the full coefficient set, rounded and clamped. -/
def Obligations.RuniIsZeroStuffedConvolution : Prop :=
  ∀ s t : State, s.runsI → exec .runi s = .next t →
    (∀ j, j < historyI s.descI → readWord (s.descI.state.toNat + j) s = 0) →
    ∀ m, m < outputsI s →
      memRead (outputBase s + m) t =
        sat16 (rnd (stuffedConvolution s.descI.taps.toNat s.descI.factor.toNat
          (fun k => memRead (s.descI.coef.toNat + k) s)
          (fun n => memRead (inputBase s + n) s) m))

/-- R161: from a zero history, output q of RUND is the convolution at stream index q*M, rounded and
clamped: it is aligned to the first sample of the q-th group of M. -/
def Obligations.RundIsDecimatedConvolution : Prop :=
  ∀ s t : State, s.runsD → exec .rund s = .next t →
    (∀ j, j < historyD s.descD → readWord (s.descD.state.toNat + j) s = 0) →
    ∀ q, q < outputsD s →
      memRead (outputBase s + q) t =
        sat16 (rnd (streamConvolution s.descD.taps.toNat
          (fun k => memRead (s.descD.coef.toNat + k) s)
          (fun n => memRead (inputBase s + n) s) (q * s.descD.factor.toNat)))

/-- R194, the row L = 1: with factor 1 RUNI is a plain FIR filter, the same as RUND with M = 1 on the
same descriptor. That ACC is left the same too is about the model alone (log entry 8, DESIGN CHOICE: R28
calls ACC between commands unobservable). -/
def Obligations.UnityFactorChannelsAgree : Prop :=
  ∀ s t u : State, s.descD = s.descI → s.descI.factor = 1 →
    s.runsD → s.runsI → exec .rund s = .next t → exec .runi s = .next u →
    t.mem = u.mem ∧ t.acc = u.acc

/-! ## Arithmetic -/

/-- R111: the product is exact, lies between -1073709056 and 2^30, and is 2^30 only for the two least
operands. -/
def Obligations.ProductRange : Prop :=
  ∀ c x : Int, -32768 ≤ c → c ≤ 32767 → -32768 ≤ x → x ≤ 32767 →
    mul c x = c * x ∧ -1073709056 ≤ mul c x ∧ mul c x ≤ 1073741824 ∧
    (mul c x = 1073741824 ↔ c = -32768 ∧ x = -32768)

/-- R112, R113: MACCLR clears ACC; MAC adds the product, saturating at the 64-bit signed range; neither
changes anything else. -/
def Obligations.MacIsSaturatingAdd : Prop :=
  (∀ s : State, macclr s = { s with acc := 0 }) ∧
  (∀ (s : State) (c x : Int),
    mac c x s = { s with acc := (mac c x s).acc } ∧
    (mac c x s).acc.toInt =
      max (-9223372036854775808) (min 9223372036854775807 (s.acc.toInt + c * x)))

/-- R115: RND is the nearest integer to a / 2^15, an exact tie going up: a lies within half a unit, the
lower half-unit included and the upper one not. -/
def Obligations.RoundIsNearestTiesUp : Prop :=
  ∀ a : Int, 32768 * rnd a - 16384 ≤ a ∧ a < 32768 * rnd a + 16384

/-- R116: RNDSAT, and the accumulator values from which each limit is reached. -/
def Obligations.RoundThenSaturate : Prop :=
  ∀ s : State,
    rndsat s = clamp ((s.acc.toInt + 16384) / 32768) (-32768) 32767 ∧
    (1073725440 ≤ s.acc.toInt → rndsat s = 32767) ∧
    (s.acc.toInt ≤ -1073758209 → rndsat s = -32768) ∧
    (-1073758208 ≤ s.acc.toInt → s.acc.toInt ≤ -1073725441 → rnd s.acc.toInt = -32768) ∧
    (-1073758209 < s.acc.toInt → s.acc.toInt < 1073725440 → rndsat s = rnd s.acc.toInt)

/-- R118: DOT over the words of MEM is the exact sum, rounded once and clamped once. -/
def Obligations.DotClosedForm : Prop :=
  ∀ (n : Nat) (coefAt sampleAt : Nat → Nat) (s : State), n < 4294967296 →
    rndsat (accumulate n coefAt sampleAt s) =
      clamp (((∑ k ∈ Finset.range n, memRead (coefAt k) s * memRead (sampleAt k) s) + 16384) / 32768)
        (-32768) 32767

/-- R120: range, zero, monotonicity in the exact sum, and the worst cases of DOT. -/
def Obligations.DotProperties : Prop :=
  (∀ n c x, -32768 ≤ dot n c x ∧ dot n c x ≤ 32767) ∧
  (∀ n c x, (∀ k, k < n → x k = 0) → dot n c x = 0) ∧
  (∀ n m c x c' x', (∑ k ∈ Finset.range n, c k * x k) ≤ (∑ k ∈ Finset.range m, c' k * x' k) →
    dot n c x ≤ dot m c' x') ∧
  (∀ n c x, 1 ≤ n → (∀ k, k < n → c k = -32768 ∧ x k = -32768) → dot n c x = 32767) ∧
  (∀ n c x, (∀ k, k < n → c k = -32768 ∧ x k = 32767) →
    (n = 1 → dot n c x = -32767) ∧ (2 ≤ n → dot n c x = -32768))

/-! ## The machine as a whole -/

/-- R27, R7, R24, R50: the invariant is kept by every step, from every state that meets it. -/
def Obligations.StepKeepsInvariant : Prop :=
  ∀ s t : State, s.Inv → step s = .next t → t.Inv

/-- The invariant holds right after reset. -/
def Obligations.ResetMeetsInvariant : Prop := State.reset.Inv

/-- R27: either LIVE_X = 0 and all five fields of X are 0, or LIVE_X = 1 and the legal values hold: so
after reset, and so after every step from a state where it is so. -/
def Obligations.DescriptorInvariant : Prop :=
  State.reset.descriptorInvD ∧ State.reset.descriptorInvI ∧
  (∀ s t : State, s.descriptorInvD → step s = .next t → t.descriptorInvD) ∧
  (∀ s t : State, s.descriptorInvI → step s = .next t → t.descriptorInvI)

/-- R51: no command ever reads or writes MEM[0]: whatever word stands there, the outcome is the same and
the word stays. -/
def Obligations.NullWordIsNeverTouched : Prop :=
  ∀ (i : Instr) (s : State) (w : Sample), Memory.wf s.mem →
    exec i (writeWord 0 w s) = mapNext (writeWord 0 w) (exec i s)

/-- R60, R218: an accepted RUND reads no word outside COEF, IN and its history: two memories that agree
there give the same STATE and OUT words. -/
def Obligations.RundReadsOnlyItsRegions : Prop :=
  ∀ (s t u : State) (m : Memory), s.runsD →
    (∀ a, ((s.descD.coef.toNat ≤ a ∧ a < s.descD.coef.toNat + s.descD.taps.toNat) ∨
        (inputBase s ≤ a ∧ a < inputBase s + blockSize s) ∨
        (s.descD.state.toNat ≤ a ∧ a < s.descD.state.toNat + historyD s.descD)) →
      readWord a { s with mem := m } = readWord a s) →
    exec .rund s = .next t → exec .rund { s with mem := m } = .next u →
    ∀ a, ((s.descD.state.toNat ≤ a ∧
          a < s.descD.state.toNat + (historyD s.descD + blockSize s)) ∨
        (outputBase s ≤ a ∧ a < outputBase s + outputsD s)) →
      readWord a u = readWord a t

/-- R60, R218: an accepted RUNI reads no word outside COEF, IN and its history: two memories that agree
there give the same STATE and OUT words. -/
def Obligations.RuniReadsOnlyItsRegions : Prop :=
  ∀ (s t u : State) (m : Memory), s.runsI →
    (∀ a, ((s.descI.coef.toNat ≤ a ∧ a < s.descI.coef.toNat + s.descI.taps.toNat) ∨
        (inputBase s ≤ a ∧ a < inputBase s + blockSize s) ∨
        (s.descI.state.toNat ≤ a ∧ a < s.descI.state.toNat + historyI s.descI)) →
      readWord a { s with mem := m } = readWord a s) →
    exec .runi s = .next t → exec .runi { s with mem := m } = .next u →
    ∀ a, ((s.descI.state.toNat ≤ a ∧
          a < s.descI.state.toNat + (historyI s.descI + blockSize s)) ∨
        (outputBase s ≤ a ∧ a < outputBase s + outputsI s)) →
      readWord a u = readWord a t

/-- R20, R218: the two descriptors share no field: INITD and RUND neither read nor write the interpolator
channel, INITI and RUNI neither read nor write the decimator channel. -/
def Obligations.ChannelsAreIndependent : Prop :=
  ∀ (s : State) (d : Descriptor) (l : Bool) (i : Instr),
    ((i = .initd ∨ i = .rund) →
      exec i { s with descI := d, status := { s.status with liveI := l } } =
        mapNext (fun t => { t with descI := d, status := { t.status with liveI := l } }) (exec i s)) ∧
    ((i = .initi ∨ i = .runi) →
      exec i { s with descD := d, status := { s.status with liveD := l } } =
        mapNext (fun t => { t with descD := d, status := { t.status with liveD := l } }) (exec i s))

/-- R69, U4: units that act at the same time on a common word, one of them writing it, are refused, and so
are two hosts on one unit. That a host transaction on MEM counts like a command is the model's inference
(log entry 11, DEDUCED). -/
def Obligations.RacingUnitsAreRefused : Prop :=
  ∀ (sys : System) (j k : Nat) (s t : State), unitAt sys j = some s → unitAt sys k = some t →
    (j = k ∨ ∃ a, ∃ w ∈ (nextFootprint s).writes, ∃ r ∈ (nextFootprint t).reads ++ (nextFootprint t).writes,
      w.base ≤ a ∧ a < w.base + w.len ∧ r.base ≤ a ∧ a < r.base + r.len) →
    stepTogether j k sys = .refused .dataRace ∧ stepTogether k j sys = .refused .dataRace

/-- R69: where two different units answer their next events each on its own and share no word of MEM that
one of them writes, acting together is answered in either order; and where it is answered in both orders,
the same words stand in MEM and the same values in every unit's registers but ACC. That a host transaction
on MEM counts like a command is the model's inference (log entry 11, DEDUCED). -/
def Obligations.IndependentUnitsCommute : Prop :=
  (∀ (sys u v : System) (j k : Nat) (s t : State), j ≠ k →
    unitAt sys j = some s → unitAt sys k = some t →
    (∀ a, ∀ w ∈ (nextFootprint s).writes, ∀ r ∈ (nextFootprint t).reads ++ (nextFootprint t).writes,
      ¬ (w.base ≤ a ∧ a < w.base + w.len ∧ r.base ≤ a ∧ a < r.base + r.len)) →
    (∀ a, ∀ w ∈ (nextFootprint t).writes, ∀ r ∈ (nextFootprint s).reads ++ (nextFootprint s).writes,
      ¬ (w.base ≤ a ∧ a < w.base + w.len ∧ r.base ≤ a ∧ a < r.base + r.len)) →
    stepUnit j sys = .next u → stepUnit k sys = .next v →
    ∃ x y, stepTogether j k sys = .next x ∧ stepTogether k j sys = .next y) ∧
  (∀ (sys u v : System) (j k : Nat),
    stepTogether j k sys = .next u → stepTogether k j sys = .next v →
    (∀ a, (memLookup u.mem a).getD (Config.powerUpWord a) =
      (memLookup v.mem a).getD (Config.powerUpWord a)) ∧
    ∀ x : Nat, (u.units[x]?).map (fun s => (s.args, s.cmd, s.status, s.descD, s.descI, s.returned)) =
      (v.units[x]?).map (fun s => (s.args, s.cmd, s.status, s.descD, s.descI, s.returned)))
end

