-- ==== Sys2Proof/Laws/Arith.lean ====
section
/-! SUPPORT. Small facts of the fixed-point arithmetic (spec/00_scope.md R8 to R10,
spec/40_arith_mac.md R111 to R117). -/

namespace Sys2Proof.Machine

theorem clamp_of_mem {v lo hi : Int} (h1 : lo ≤ v) (h2 : v ≤ hi) : clamp v lo hi = v := by
  unfold clamp; split_ifs <;> omega

theorem le_clamp {v lo hi : Int} (h : lo ≤ hi) : lo ≤ clamp v lo hi := by
  unfold clamp; split_ifs <;> omega

theorem clamp_le {v lo hi : Int} (h : lo ≤ hi) : clamp v lo hi ≤ hi := by
  unfold clamp; split_ifs <;> omega

theorem clamp_mono {v u lo hi : Int} (h : v ≤ u) (hl : lo ≤ hi) : clamp v lo hi ≤ clamp u lo hi := by
  unfold clamp; split_ifs <;> omega

theorem s16_bounds (w : Sample) : -32768 ≤ s16 w ∧ s16 w ≤ 32767 := by
  have h1 := BitVec.le_toInt w
  have h2 := BitVec.toInt_lt (x := w)
  norm_num at h1 h2
  exact ⟨h1, by unfold s16; omega⟩

/-- Reading a word as an integer and storing the integer gives the word back (R9). -/
@[simp] theorem w16_s16 (w : Sample) : w16 (s16 w) = w := BitVec.ofInt_toInt

/-- Storing a 16-bit signed integer and reading it gives the integer back (R9). -/
theorem s16_w16 {v : Int} (h1 : -32768 ≤ v) (h2 : v ≤ 32767) : s16 (w16 v) = v := by
  unfold s16 w16
  rw [BitVec.toInt_ofInt]
  exact Int.bmod_eq_of_le (by norm_num; omega) (by norm_num; omega)

theorem rnd_eq (a : Int) : rnd a = (a + 16384) / 32768 := rfl

theorem sat16_bounds (y : Int) : -32768 ≤ sat16 y ∧ sat16 y ≤ 32767 :=
  ⟨le_clamp (by decide), clamp_le (by decide)⟩

/-- The product of two Q15 integers is at most 2^30 in magnitude (R111). -/
theorem mul_bounds {c x : Int} (hc : -32768 ≤ c ∧ c ≤ 32767) (hx : -32768 ≤ x ∧ x ≤ 32767) :
    -1073741824 ≤ mul c x ∧ mul c x ≤ 1073741824 := by
  unfold mul
  constructor <;> nlinarith [hc.1, hc.2, hx.1, hx.2]

end Sys2Proof.Machine
end

