-- ==== Sys2Proof/Laws/State.lean ====
section
/-! SUPPORT. One lemma per field per named update of State, true by rfl, so that no proof unfolds a
record update. -/

namespace Sys2Proof.Machine

/-! ## `State.setArgs` -/

@[simp] theorem State.setArgs_args (s : State) (v : Args) : (s.setArgs v).args = v := rfl
@[simp] theorem State.setArgs_cmd (s : State) (v : Args) : (s.setArgs v).cmd = s.cmd := rfl
@[simp] theorem State.setArgs_status (s : State) (v : Args) : (s.setArgs v).status = s.status := rfl
@[simp] theorem State.setArgs_descD (s : State) (v : Args) : (s.setArgs v).descD = s.descD := rfl
@[simp] theorem State.setArgs_descI (s : State) (v : Args) : (s.setArgs v).descI = s.descI := rfl
@[simp] theorem State.setArgs_acc (s : State) (v : Args) : (s.setArgs v).acc = s.acc := rfl
@[simp] theorem State.setArgs_mem (s : State) (v : Args) : (s.setArgs v).mem = s.mem := rfl
@[simp] theorem State.setArgs_memWords (s : State) (v : Args) : (s.setArgs v).memWords = s.memWords := rfl
@[simp] theorem State.setArgs_events (s : State) (v : Args) : (s.setArgs v).events = s.events := rfl
@[simp] theorem State.setArgs_returned (s : State) (v : Args) : (s.setArgs v).returned = s.returned := rfl

/-! ## `State.setCmd` -/

@[simp] theorem State.setCmd_args (s : State) (v : Word) : (s.setCmd v).args = s.args := rfl
@[simp] theorem State.setCmd_cmd (s : State) (v : Word) : (s.setCmd v).cmd = v := rfl
@[simp] theorem State.setCmd_status (s : State) (v : Word) : (s.setCmd v).status = s.status := rfl
@[simp] theorem State.setCmd_descD (s : State) (v : Word) : (s.setCmd v).descD = s.descD := rfl
@[simp] theorem State.setCmd_descI (s : State) (v : Word) : (s.setCmd v).descI = s.descI := rfl
@[simp] theorem State.setCmd_acc (s : State) (v : Word) : (s.setCmd v).acc = s.acc := rfl
@[simp] theorem State.setCmd_mem (s : State) (v : Word) : (s.setCmd v).mem = s.mem := rfl
@[simp] theorem State.setCmd_memWords (s : State) (v : Word) : (s.setCmd v).memWords = s.memWords := rfl
@[simp] theorem State.setCmd_events (s : State) (v : Word) : (s.setCmd v).events = s.events := rfl
@[simp] theorem State.setCmd_returned (s : State) (v : Word) : (s.setCmd v).returned = s.returned := rfl

/-! ## `State.setStatus` -/

@[simp] theorem State.setStatus_args (s : State) (v : Status) : (s.setStatus v).args = s.args := rfl
@[simp] theorem State.setStatus_cmd (s : State) (v : Status) : (s.setStatus v).cmd = s.cmd := rfl
@[simp] theorem State.setStatus_status (s : State) (v : Status) : (s.setStatus v).status = v := rfl
@[simp] theorem State.setStatus_descD (s : State) (v : Status) : (s.setStatus v).descD = s.descD := rfl
@[simp] theorem State.setStatus_descI (s : State) (v : Status) : (s.setStatus v).descI = s.descI := rfl
@[simp] theorem State.setStatus_acc (s : State) (v : Status) : (s.setStatus v).acc = s.acc := rfl
@[simp] theorem State.setStatus_mem (s : State) (v : Status) : (s.setStatus v).mem = s.mem := rfl
@[simp] theorem State.setStatus_memWords (s : State) (v : Status) : (s.setStatus v).memWords = s.memWords := rfl
@[simp] theorem State.setStatus_events (s : State) (v : Status) : (s.setStatus v).events = s.events := rfl
@[simp] theorem State.setStatus_returned (s : State) (v : Status) : (s.setStatus v).returned = s.returned := rfl

/-! ## `State.setDescD` -/

@[simp] theorem State.setDescD_args (s : State) (v : Descriptor) : (s.setDescD v).args = s.args := rfl
@[simp] theorem State.setDescD_cmd (s : State) (v : Descriptor) : (s.setDescD v).cmd = s.cmd := rfl
@[simp] theorem State.setDescD_status (s : State) (v : Descriptor) : (s.setDescD v).status = s.status := rfl
@[simp] theorem State.setDescD_descD (s : State) (v : Descriptor) : (s.setDescD v).descD = v := rfl
@[simp] theorem State.setDescD_descI (s : State) (v : Descriptor) : (s.setDescD v).descI = s.descI := rfl
@[simp] theorem State.setDescD_acc (s : State) (v : Descriptor) : (s.setDescD v).acc = s.acc := rfl
@[simp] theorem State.setDescD_mem (s : State) (v : Descriptor) : (s.setDescD v).mem = s.mem := rfl
@[simp] theorem State.setDescD_memWords (s : State) (v : Descriptor) : (s.setDescD v).memWords = s.memWords := rfl
@[simp] theorem State.setDescD_events (s : State) (v : Descriptor) : (s.setDescD v).events = s.events := rfl
@[simp] theorem State.setDescD_returned (s : State) (v : Descriptor) : (s.setDescD v).returned = s.returned := rfl

/-! ## `State.setDescI` -/

@[simp] theorem State.setDescI_args (s : State) (v : Descriptor) : (s.setDescI v).args = s.args := rfl
@[simp] theorem State.setDescI_cmd (s : State) (v : Descriptor) : (s.setDescI v).cmd = s.cmd := rfl
@[simp] theorem State.setDescI_status (s : State) (v : Descriptor) : (s.setDescI v).status = s.status := rfl
@[simp] theorem State.setDescI_descD (s : State) (v : Descriptor) : (s.setDescI v).descD = s.descD := rfl
@[simp] theorem State.setDescI_descI (s : State) (v : Descriptor) : (s.setDescI v).descI = v := rfl
@[simp] theorem State.setDescI_acc (s : State) (v : Descriptor) : (s.setDescI v).acc = s.acc := rfl
@[simp] theorem State.setDescI_mem (s : State) (v : Descriptor) : (s.setDescI v).mem = s.mem := rfl
@[simp] theorem State.setDescI_memWords (s : State) (v : Descriptor) : (s.setDescI v).memWords = s.memWords := rfl
@[simp] theorem State.setDescI_events (s : State) (v : Descriptor) : (s.setDescI v).events = s.events := rfl
@[simp] theorem State.setDescI_returned (s : State) (v : Descriptor) : (s.setDescI v).returned = s.returned := rfl

/-! ## `State.setAcc` -/

@[simp] theorem State.setAcc_args (s : State) (v : AccWord) : (s.setAcc v).args = s.args := rfl
@[simp] theorem State.setAcc_cmd (s : State) (v : AccWord) : (s.setAcc v).cmd = s.cmd := rfl
@[simp] theorem State.setAcc_status (s : State) (v : AccWord) : (s.setAcc v).status = s.status := rfl
@[simp] theorem State.setAcc_descD (s : State) (v : AccWord) : (s.setAcc v).descD = s.descD := rfl
@[simp] theorem State.setAcc_descI (s : State) (v : AccWord) : (s.setAcc v).descI = s.descI := rfl
@[simp] theorem State.setAcc_acc (s : State) (v : AccWord) : (s.setAcc v).acc = v := rfl
@[simp] theorem State.setAcc_mem (s : State) (v : AccWord) : (s.setAcc v).mem = s.mem := rfl
@[simp] theorem State.setAcc_memWords (s : State) (v : AccWord) : (s.setAcc v).memWords = s.memWords := rfl
@[simp] theorem State.setAcc_events (s : State) (v : AccWord) : (s.setAcc v).events = s.events := rfl
@[simp] theorem State.setAcc_returned (s : State) (v : AccWord) : (s.setAcc v).returned = s.returned := rfl

/-! ## `State.setMem` -/

@[simp] theorem State.setMem_args (s : State) (v : Memory) : (s.setMem v).args = s.args := rfl
@[simp] theorem State.setMem_cmd (s : State) (v : Memory) : (s.setMem v).cmd = s.cmd := rfl
@[simp] theorem State.setMem_status (s : State) (v : Memory) : (s.setMem v).status = s.status := rfl
@[simp] theorem State.setMem_descD (s : State) (v : Memory) : (s.setMem v).descD = s.descD := rfl
@[simp] theorem State.setMem_descI (s : State) (v : Memory) : (s.setMem v).descI = s.descI := rfl
@[simp] theorem State.setMem_acc (s : State) (v : Memory) : (s.setMem v).acc = s.acc := rfl
@[simp] theorem State.setMem_mem (s : State) (v : Memory) : (s.setMem v).mem = v := rfl
@[simp] theorem State.setMem_memWords (s : State) (v : Memory) : (s.setMem v).memWords = s.memWords := rfl
@[simp] theorem State.setMem_events (s : State) (v : Memory) : (s.setMem v).events = s.events := rfl
@[simp] theorem State.setMem_returned (s : State) (v : Memory) : (s.setMem v).returned = s.returned := rfl

/-! ## `State.setEvents` -/

@[simp] theorem State.setEvents_args (s : State) (v : List Event) : (s.setEvents v).args = s.args := rfl
@[simp] theorem State.setEvents_cmd (s : State) (v : List Event) : (s.setEvents v).cmd = s.cmd := rfl
@[simp] theorem State.setEvents_status (s : State) (v : List Event) : (s.setEvents v).status = s.status := rfl
@[simp] theorem State.setEvents_descD (s : State) (v : List Event) : (s.setEvents v).descD = s.descD := rfl
@[simp] theorem State.setEvents_descI (s : State) (v : List Event) : (s.setEvents v).descI = s.descI := rfl
@[simp] theorem State.setEvents_acc (s : State) (v : List Event) : (s.setEvents v).acc = s.acc := rfl
@[simp] theorem State.setEvents_mem (s : State) (v : List Event) : (s.setEvents v).mem = s.mem := rfl
@[simp] theorem State.setEvents_memWords (s : State) (v : List Event) : (s.setEvents v).memWords = s.memWords := rfl
@[simp] theorem State.setEvents_events (s : State) (v : List Event) : (s.setEvents v).events = v := rfl
@[simp] theorem State.setEvents_returned (s : State) (v : List Event) : (s.setEvents v).returned = s.returned := rfl

/-! ## `State.setReturned` -/

@[simp] theorem State.setReturned_args (s : State) (v : List HostData) : (s.setReturned v).args = s.args := rfl
@[simp] theorem State.setReturned_cmd (s : State) (v : List HostData) : (s.setReturned v).cmd = s.cmd := rfl
@[simp] theorem State.setReturned_status (s : State) (v : List HostData) : (s.setReturned v).status = s.status := rfl
@[simp] theorem State.setReturned_descD (s : State) (v : List HostData) : (s.setReturned v).descD = s.descD := rfl
@[simp] theorem State.setReturned_descI (s : State) (v : List HostData) : (s.setReturned v).descI = s.descI := rfl
@[simp] theorem State.setReturned_acc (s : State) (v : List HostData) : (s.setReturned v).acc = s.acc := rfl
@[simp] theorem State.setReturned_mem (s : State) (v : List HostData) : (s.setReturned v).mem = s.mem := rfl
@[simp] theorem State.setReturned_memWords (s : State) (v : List HostData) : (s.setReturned v).memWords = s.memWords := rfl
@[simp] theorem State.setReturned_events (s : State) (v : List HostData) : (s.setReturned v).events = s.events := rfl
@[simp] theorem State.setReturned_returned (s : State) (v : List HostData) : (s.setReturned v).returned = v := rfl

end Sys2Proof.Machine
end

