-- ==== Sys2Proof/Laws/Memory.lean ====
section
/-! SUPPORT. Sample memory: what a read gives after a write, and that every memory operation keeps the
canonical form. -/

namespace Sys2Proof.Machine

/-! ## The list -/

theorem memLookup_memInsert (m : Memory) (a b : Nat) (w : Sample) :
    memLookup (memInsert m a w) b = if b = a then some w else memLookup m b := by
  induction m with
  | nil => simp [memInsert, memLookup]
  | cons x m ih =>
    obtain ⟨c, u⟩ := x
    simp only [memInsert]
    split_ifs with h1 h2 h3 h4 h5 <;> simp_all [memLookup]

theorem mem_memInsert {m : Memory} {a : Nat} {w : Sample} {x : Nat × Sample}
    (h : x ∈ memInsert m a w) : x = (a, w) ∨ x ∈ m := by
  induction m with
  | nil => simpa [memInsert] using h
  | cons y m ih =>
    obtain ⟨c, u⟩ := y
    simp only [memInsert] at h
    split_ifs at h with h1 h2
    · simpa using h
    · rcases List.mem_cons.mp h with h | h
      · exact .inl h
      · exact .inr (List.mem_cons_of_mem _ h)
    · rcases List.mem_cons.mp h with h | h
      · exact .inr (h ▸ List.mem_cons_self ..)
      · exact (ih h).imp_right (List.mem_cons_of_mem _)

/-- Writing keeps the canonical form. -/
theorem wf_memInsert {m : Memory} (hm : Memory.wf m) (a : Nat) (w : Sample) :
    Memory.wf (memInsert m a w) := by
  induction m with
  | nil => simp [memInsert]
  | cons y m ih =>
    obtain ⟨c, u⟩ := y
    obtain ⟨hy, hm'⟩ := List.pairwise_cons.mp hm
    simp only [memInsert]
    split_ifs with h1 h2
    · refine List.pairwise_cons.mpr ⟨fun x hx => ?_, hm⟩
      rcases List.mem_cons.mp hx with rfl | hx
      · exact h1
      · exact h1.trans (hy x hx)
    · exact List.pairwise_cons.mpr ⟨fun x hx => h2 ▸ hy x hx, hm'⟩
    · refine List.pairwise_cons.mpr ⟨fun x hx => ?_, ih hm'⟩
      rcases mem_memInsert hx with rfl | hx
      · simp only; omega
      · exact hy x hx

/-- An address below every listed one is not listed. -/
theorem memLookup_eq_none {m : Memory} {a : Nat} (h : ∀ x ∈ m, a < x.1) : memLookup m a = none := by
  induction m with
  | nil => rfl
  | cons y m ih =>
    obtain ⟨c, u⟩ := y
    have := h (c, u) (List.mem_cons_self ..)
    simp only [memLookup]
    rw [if_neg (by simp only at this; omega)]
    exact ih fun x hx => h x (List.mem_cons_of_mem _ hx)

/-- In canonical form, equal lookups mean equal memories: equal memories are equal data. -/
theorem memory_ext {m m' : Memory} (hm : Memory.wf m) (hm' : Memory.wf m')
    (h : ∀ a, memLookup m a = memLookup m' a) : m = m' := by
  induction m generalizing m' with
  | nil =>
    cases m' with
    | nil => rfl
    | cons y m' => simpa [memLookup] using h y.1
  | cons x m ih =>
    obtain ⟨a, u⟩ := x
    obtain ⟨hx, hm⟩ := List.pairwise_cons.mp hm
    cases m' with
    | nil => simpa [memLookup] using h a
    | cons y m' =>
      obtain ⟨b, v⟩ := y
      obtain ⟨hy, hmt⟩ := List.pairwise_cons.mp hm'
      have hab : a = b := by
        by_contra hne
        rcases Nat.lt_or_gt_of_ne hne with hlt | hlt
        · have h1 := h a
          rw [memLookup_eq_none (m := (b, v) :: m') (a := a)] at h1
          · simp [memLookup] at h1
          · intro x hx'
            rcases List.mem_cons.mp hx' with rfl | hx'
            · exact hlt
            · exact hlt.trans (hy x hx')
        · have h1 := h b
          rw [memLookup_eq_none (m := (a, u) :: m) (a := b)] at h1
          · simp [memLookup] at h1
          · intro x hx'
            rcases List.mem_cons.mp hx' with rfl | hx'
            · exact hlt
            · exact hlt.trans (hx x hx')
      subst hab
      have huv : u = v := by simpa [memLookup] using h a
      subst huv
      congr 1
      refine ih hm hmt fun c => ?_
      by_cases hc : c = a
      · subst hc
        rw [memLookup_eq_none fun x hx' => hx x hx', memLookup_eq_none fun x hx' => hy x hx']
      · simpa [memLookup, hc] using h c

/-! ## Words of a state -/

/-- A read gives the word just written there, and at every other address what it gave before. -/
theorem readWord_writeWord (a b : Nat) (w : Sample) (s : State) :
    readWord b (writeWord a w s) = if b = a then w else readWord b s := by
  simp only [readWord, writeWord, State.setMem_mem, memLookup_memInsert]
  split_ifs <;> simp

/-- The word at an address depends on the memory alone. -/
theorem readWord_congr {s t : State} (h : s.mem = t.mem) (a : Nat) : readWord a s = readWord a t := by
  simp [readWord, h]

@[simp] theorem readWord_setArgs (s : State) (v : Args) (a : Nat) :
    readWord a (s.setArgs v) = readWord a s := rfl
@[simp] theorem readWord_setCmd (s : State) (v : Word) (a : Nat) :
    readWord a (s.setCmd v) = readWord a s := rfl
@[simp] theorem readWord_setStatus (s : State) (v : Status) (a : Nat) :
    readWord a (s.setStatus v) = readWord a s := rfl
@[simp] theorem readWord_setDescD (s : State) (v : Descriptor) (a : Nat) :
    readWord a (s.setDescD v) = readWord a s := rfl
@[simp] theorem readWord_setDescI (s : State) (v : Descriptor) (a : Nat) :
    readWord a (s.setDescI v) = readWord a s := rfl
@[simp] theorem readWord_setAcc (s : State) (v : AccWord) (a : Nat) :
    readWord a (s.setAcc v) = readWord a s := rfl
@[simp] theorem readWord_setEvents (s : State) (v : List Event) (a : Nat) :
    readWord a (s.setEvents v) = readWord a s := rfl
@[simp] theorem readWord_setReturned (s : State) (v : List HostData) (a : Nat) :
    readWord a (s.setReturned v) = readWord a s := rfl

/-- `MemRead` after `MemWrite` (R56 to R58). -/
theorem readWord_memWrite (a b : Nat) (v : Int) (s : State) :
    readWord b (memWrite a v s) = if b = a then w16 v else readWord b s :=
  readWord_writeWord a b (w16 v) s

end Sys2Proof.Machine
end

