-- ==== Sys2Proof/Laws/Ops.lean ====
section
/-! SUPPORT. One lemma per shared operation that says everything it does: the counted loop, the
multiply-accumulate, the output sample, APPEND and SHIFT. -/

namespace Sys2Proof.Machine

/-! ## Counted loops -/

/-- A property that holds before the loop and that each iteration carries on holds after it. -/
theorem forUpTo_induct {P : Nat → State → Prop} {n : Nat} {body : Nat → State → State} {s : State}
    (h0 : P 0 s) (hstep : ∀ i t, i < n → P i t → P (i + 1) (body i t)) : P n (forUpTo n body s) := by
  induction n with
  | zero => exact h0
  | succ n ih => exact hstep n _ (Nat.lt_succ_self n) (ih fun i t hi => hstep i t (by omega))

/-- Two loops whose bodies agree on every index they meet give the same state. -/
theorem forUpTo_congr {n : Nat} {f g : Nat → State → State} {s : State}
    (h : ∀ i t, i < n → f i t = g i t) : forUpTo n f s = forUpTo n g s := by
  induction n with
  | zero => rfl
  | succ n ih =>
    simp only [forUpTo]
    rw [ih fun i t hi => h i t (by omega), h n _ (Nat.lt_succ_self n)]

/-- A change of state that every iteration commutes with, where a property holds that every iteration
keeps, commutes with the loop; and the property holds after it. -/
theorem forUpTo_commute {P : State → Prop} {n : Nat} {body : Nat → State → State} (f : State → State)
    {s : State} (hs : P s) (hP : ∀ i t, i < n → P t → P (body i t))
    (hf : ∀ i t, i < n → P t → body i (f t) = f (body i t)) :
    P (forUpTo n body s) ∧ forUpTo n body (f s) = f (forUpTo n body s) :=
  forUpTo_induct (P := fun i t => P t ∧ forUpTo i body (f s) = f t) ⟨hs, rfl⟩
    fun i t hi ⟨ht, e⟩ => ⟨hP i t hi ht, by simp only [forUpTo]; rw [e, hf i t hi ht]⟩

/-! ## Work that stays inside the accumulator and memory -/

/-- `t` differs from `s` at most in ACC and in MEM: what every micro-operation keeps. -/
def OnlyAccMem (s t : State) : Prop := t = (s.setAcc t.acc).setMem t.mem

theorem OnlyAccMem.refl (s : State) : OnlyAccMem s s := rfl

theorem OnlyAccMem.trans {s t u : State} (h : OnlyAccMem s t) (h' : OnlyAccMem t u) :
    OnlyAccMem s u := by
  unfold OnlyAccMem at *
  rw [h'] ; rw [h] ; rfl

theorem OnlyAccMem.setAcc (s : State) (v : AccWord) : OnlyAccMem s (s.setAcc v) := rfl
theorem OnlyAccMem.setMem (s : State) (v : Memory) : OnlyAccMem s (s.setMem v) := rfl

theorem OnlyAccMem.fields {s t : State} (h : OnlyAccMem s t) :
    t.args = s.args ∧ t.cmd = s.cmd ∧ t.status = s.status ∧ t.descD = s.descD ∧ t.descI = s.descI ∧
      t.memWords = s.memWords ∧ t.events = s.events ∧ t.returned = s.returned := by
  unfold OnlyAccMem at h
  rw [h]
  exact ⟨rfl, rfl, rfl, rfl, rfl, rfl, rfl, rfl⟩

theorem OnlyAccMem.forUpTo {n : Nat} {body : Nat → State → State} {s : State}
    (h : ∀ i t, OnlyAccMem t (body i t)) : OnlyAccMem s (forUpTo n body s) :=
  forUpTo_induct (P := fun _ t => OnlyAccMem s t) (OnlyAccMem.refl s) fun i t _ ht => ht.trans (h i t)

theorem onlyAccMem_accumulate (n : Nat) (cA xA : Nat → Nat) (s : State) :
    OnlyAccMem s (accumulate n cA xA s) :=
  (OnlyAccMem.setAcc s 0).trans (OnlyAccMem.forUpTo fun _ t => OnlyAccMem.setAcc t _)

theorem onlyAccMem_storeOutput (out n : Nat) (cA xA : Nat → Nat) (s : State) :
    OnlyAccMem s (storeOutput out n cA xA s) :=
  (onlyAccMem_accumulate n cA xA s).trans (OnlyAccMem.setMem _ _)

theorem onlyAccMem_append (st h pIn b : Nat) (s : State) : OnlyAccMem s (append st h pIn b s) :=
  OnlyAccMem.forUpTo fun _ t => OnlyAccMem.setMem t _

theorem onlyAccMem_shift (st h b : Nat) (s : State) : OnlyAccMem s (shift st h b s) :=
  OnlyAccMem.forUpTo fun _ t => OnlyAccMem.setMem t _

/-! ## Canonical memory is kept, and every listed address is inside MEM -/

theorem wf_writeWord {s : State} (h : Memory.wf s.mem) (a : Nat) (w : Sample) :
    Memory.wf (writeWord a w s).mem := wf_memInsert h a w

theorem wf_forUpTo {n : Nat} {body : Nat → State → State} {s : State} (hs : Memory.wf s.mem)
    (h : ∀ i t, Memory.wf t.mem → Memory.wf (body i t).mem) : Memory.wf (forUpTo n body s).mem :=
  forUpTo_induct (P := fun _ t => Memory.wf t.mem) hs fun i t _ ht => h i t ht

/-! ## The dot product -/

theorem accumulate_mem (n : Nat) (cA xA : Nat → Nat) (s : State) :
    (accumulate n cA xA s).mem = s.mem :=
  forUpTo_induct (P := fun _ t => t.mem = s.mem) rfl fun _ _ _ h => h

/-- R113, R114: within 2^32 terms the accumulator never meets its limits, so a MAC adds exactly. -/
theorem mac_acc {c x : Int} {s : State} {n : Nat} (hn : n < 4294967296)
    (hc : -32768 ≤ c ∧ c ≤ 32767) (hx : -32768 ≤ x ∧ x ≤ 32767)
    (hs : -(n * 1073741824 : Int) ≤ s.acc.toInt ∧ s.acc.toInt ≤ n * 1073741824) :
    (mac c x s).acc.toInt = s.acc.toInt + c * x := by
  have hb := mul_bounds hc hx
  have hn' : (n : Int) ≤ 4294967295 := by omega
  have h1 : -4611686018427387904 ≤ s.acc.toInt + mul c x := by nlinarith [hs.1, hb.1]
  have h2 : s.acc.toInt + mul c x ≤ 4611686018427387904 := by nlinarith [hs.2, hb.2]
  simp only [mac, State.setAcc_acc, accMin, accMax]
  rw [clamp_of_mem (by omega) (by omega), BitVec.toInt_ofInt,
    Int.bmod_eq_of_le (by norm_num; omega) (by norm_num; omega)]
  rfl

/-- R114, R118: after the MACs of one output sample the accumulator holds the exact sum. -/
theorem accumulate_acc {n : Nat} (hn : n < 4294967296) (cA xA : Nat → Nat) (s : State) :
    (accumulate n cA xA s).acc.toInt =
      ∑ k ∈ Finset.range n, memRead (cA k) s * memRead (xA k) s := by
  have key := forUpTo_induct (n := n) (s := macclr s)
    (body := fun k t => mac (memRead (cA k) t) (memRead (xA k) t) t)
    (P := fun i t => t.mem = s.mem ∧
      t.acc.toInt = ∑ k ∈ Finset.range i, memRead (cA k) s * memRead (xA k) s ∧
      (-(i * 1073741824 : Int) ≤ t.acc.toInt ∧ t.acc.toInt ≤ i * 1073741824))
    ⟨rfl, by simp [macclr], by simp [macclr]⟩ ?_
  · exact key.2.1
  · rintro i t hi ⟨hm, hacc, hb⟩
    have hc : ∀ a, memRead a t = memRead a s := fun a => by
      unfold memRead; rw [readWord_congr hm]
    have hB := mul_bounds (s16_bounds (readWord (cA i) s)) (s16_bounds (readWord (xA i) s))
    have hmac := mac_acc (s := t) (n := i) (by omega) (s16_bounds (readWord (cA i) t))
      (s16_bounds (readWord (xA i) t)) hb
    have hmac' : (mac (memRead (cA i) t) (memRead (xA i) t) t).acc.toInt
        = t.acc.toInt + memRead (cA i) s * memRead (xA i) s := by
      rw [← hc, ← hc]; exact hmac
    have hB' : -1073741824 ≤ memRead (cA i) s * memRead (xA i) s ∧
      memRead (cA i) s * memRead (xA i) s ≤ 1073741824 := hB
    refine ⟨hm, ?_, ?_⟩
    · rw [hmac', Finset.sum_range_succ, hacc]
    · rw [hmac']; push_cast; constructor <;> linarith [hb.1, hb.2, hB'.1, hB'.2]

/-- The word an output sample stores, R118's closed form. -/
theorem readWord_storeOutput {n : Nat} (hn : n < 4294967296) (out : Nat) (cA xA : Nat → Nat)
    (s : State) (a : Nat) :
    readWord a (storeOutput out n cA xA s) =
      if a = out then
        w16 (sat16 (rnd (∑ k ∈ Finset.range n, memRead (cA k) s * memRead (xA k) s)))
      else readWord a s := by
  simp only [storeOutput, readWord_memWrite, rndsat, accumulate_acc hn]
  split_ifs
  · rfl
  · exact readWord_congr (accumulate_mem n cA xA s) a

/-! ## The delay-line shifter -/

/-- R132: what every word holds after APPEND, where the input block and the words written are disjoint. -/
theorem readWord_append {st h pIn b : Nat} (hd : b = 0 ∨ pIn + b ≤ st + h ∨ st + h + b ≤ pIn)
    (s : State) (a : Nat) :
    readWord a (append st h pIn b s) =
      if st + h ≤ a ∧ a < st + h + b then readWord (pIn + (a - (st + h))) s else readWord a s := by
  have key : ∀ a, readWord a (append st h pIn b s) =
      if st + h ≤ a ∧ a < st + h + b then readWord (pIn + (a - (st + h))) s else readWord a s := by
    refine forUpTo_induct (n := b) (P := fun i t => ∀ a, readWord a t =
      if st + h ≤ a ∧ a < st + h + i then readWord (pIn + (a - (st + h))) s else readWord a s) ?_ ?_
    · intro a; rw [if_neg (by omega)]
    · intro i t hi ih a
      rw [readWord_memWrite, memRead, w16_s16]
      by_cases ha : a = st + h + i
      · subst ha
        rw [if_pos rfl, if_pos (by omega), ih, if_neg (by omega)]
        congr 1; omega
      · rw [if_neg ha, ih]
        by_cases hin : st + h ≤ a ∧ a < st + h + i
        · rw [if_pos hin, if_pos (by omega)]
        · rw [if_neg hin, if_neg (by omega)]
  exact key a

/-- R135: what every word holds after SHIFT; the ascending order makes it right for every overlap. -/
theorem readWord_shift (st h b : Nat) (s : State) (a : Nat) :
    readWord a (shift st h b s) = if st ≤ a ∧ a < st + h then readWord (a + b) s else readWord a s := by
  have key : ∀ a, readWord a (shift st h b s) =
      if st ≤ a ∧ a < st + h then readWord (a + b) s else readWord a s := by
    refine forUpTo_induct (n := h) (P := fun i t => ∀ a, readWord a t =
      if st ≤ a ∧ a < st + i then readWord (a + b) s else readWord a s) ?_ ?_
    · intro a; rw [if_neg (by omega)]
    · intro i t hi ih a
      rw [readWord_memWrite, memRead, w16_s16]
      by_cases ha : a = st + i
      · subst ha
        rw [if_pos rfl, if_pos (by omega), ih]
        by_cases hb : b = 0
        · subst hb; rw [if_neg (by omega)]; rfl
        · rw [if_neg (by omega)]; congr 1; omega
      · rw [if_neg ha, ih]
        by_cases hin : st ≤ a ∧ a < st + i
        · rw [if_pos hin, if_pos (by omega)]
        · rw [if_neg hin, if_neg (by omega)]
  exact key a

end Sys2Proof.Machine
end

