-- ==== Sys2Proof/Laws/Channels.lean ====
section
/-! SUPPORT. What the two convolution loops leave in memory (spec/42_decimator.md R160,
spec/43_interpolator.md R190): one lemma per loop, in terms of the memory before it. -/

namespace Sys2Proof.Machine

theorem memRead_congr {s t : State} {a : Nat} (h : readWord a t = readWord a s) :
    memRead a t = memRead a s := by
  unfold memRead; rw [h]

theorem onlyAccMem_decimate (d : Descriptor) (pOut nOut : Nat) (s : State) :
    OnlyAccMem s (decimate d pOut nOut s) :=
  OnlyAccMem.forUpTo fun _ t => onlyAccMem_storeOutput _ _ _ _ t

theorem onlyAccMem_interpolate (d : Descriptor) (pOut b : Nat) (s : State) :
    OnlyAccMem s (interpolate d pOut b s) :=
  OnlyAccMem.forUpTo fun _ _ => OnlyAccMem.forUpTo fun _ u => onlyAccMem_storeOutput _ _ _ _ u

theorem onlyAccMem_runDecimator (s : State) : OnlyAccMem s (runDecimator s) :=
  ((onlyAccMem_append _ _ _ _ s).trans (onlyAccMem_decimate _ _ _ _)).trans (onlyAccMem_shift _ _ _ _)

theorem onlyAccMem_runInterpolator (s : State) : OnlyAccMem s (runInterpolator s) :=
  ((onlyAccMem_append _ _ _ _ s).trans (onlyAccMem_interpolate _ _ _ _)).trans
    (onlyAccMem_shift _ _ _ _)

/-- A loop that stores output i at `pOut + i`, its coefficients and samples lying outside the output
region, stores each closed form and changes no other word. -/
theorem readWord_outputLoop {n : Nat} (hn : n < 4294967296) {pOut nOut : Nat} {cA xA : Nat → Nat → Nat}
    {s : State} (hc : ∀ i k, i < nOut → k < n → cA i k < pOut ∨ pOut + nOut ≤ cA i k)
    (hx : ∀ i k, i < nOut → k < n → xA i k < pOut ∨ pOut + nOut ≤ xA i k) (a : Nat) :
    readWord a (forUpTo nOut (fun i t => storeOutput (pOut + i) n (cA i) (xA i) t) s) =
      if pOut ≤ a ∧ a < pOut + nOut then
        w16 (dot n (fun k => memRead (cA (a - pOut) k) s) (fun k => memRead (xA (a - pOut) k) s))
      else readWord a s := by
  revert a
  refine forUpTo_induct (n := nOut) (P := fun i t => ∀ a, readWord a t =
    if pOut ≤ a ∧ a < pOut + i then
      w16 (dot n (fun k => memRead (cA (a - pOut) k) s) (fun k => memRead (xA (a - pOut) k) s))
    else readWord a s) ?_ ?_
  · intro a; rw [if_neg (by omega)]
  · intro i t hi ih a
    have hout : ∀ b, b < pOut ∨ pOut + nOut ≤ b → memRead b t = memRead b s := fun b hb =>
      memRead_congr (by rw [ih, if_neg (by omega)])
    rw [readWord_storeOutput hn]
    by_cases ha : a = pOut + i
    · subst ha
      rw [if_pos rfl, if_pos (by omega), Nat.add_sub_cancel_left]
      unfold dot
      congr 3
      refine Finset.sum_congr rfl fun k hk => ?_
      have hk := Finset.mem_range.mp hk
      rw [hout _ (hc i k hi hk), hout _ (hx i k hi hk)]
    · rw [if_neg ha, ih]
      by_cases hin : pOut ≤ a ∧ a < pOut + i
      · rw [if_pos hin, if_pos (by omega)]
      · rw [if_neg hin, if_neg (by omega)]

/-- R160: the outputs of RUND, where COEF and the window lie outside OUT. -/
theorem readWord_decimate {d : Descriptor} {pOut nOut : Nat} {s : State}
    (hc : ∀ k, k < d.taps.toNat → d.coef.toNat + k < pOut ∨ pOut + nOut ≤ d.coef.toNat + k)
    (hx : ∀ i k, i < nOut → k < d.taps.toNat →
      d.state.toNat + i * d.factor.toNat + d.taps.toNat - 1 - k < pOut ∨
      pOut + nOut ≤ d.state.toNat + i * d.factor.toNat + d.taps.toNat - 1 - k) (a : Nat) :
    readWord a (decimate d pOut nOut s) =
      if pOut ≤ a ∧ a < pOut + nOut then
        w16 (dot d.taps.toNat (fun k => memRead (d.coef.toNat + k) s)
          (fun k => memRead (d.state.toNat + (a - pOut) * d.factor.toNat + d.taps.toNat - 1 - k) s))
      else readWord a s :=
  readWord_outputLoop d.taps.isLt (cA := fun _ k => d.coef.toNat + k)
    (xA := fun i k => d.state.toNat + i * d.factor.toNat + d.taps.toNat - 1 - k)
    (fun _ k _ hk => hc k hk) hx a

theorem forUpTo_add (n m : Nat) (f : Nat → State → State) (s : State) :
    forUpTo (n + m) f s = forUpTo m (fun i => f (n + i)) (forUpTo n f s) := by
  induction m with
  | zero => rfl
  | succ m ih =>
    change f (n + m) (forUpTo (n + m) f s) = _
    rw [ih]
    rfl

/-- Two nested counted loops are one loop over the joint index `i*m + j`. -/
theorem forUpTo_nested (n m : Nat) (hm : 0 < m) (f : Nat → Nat → State → State) (s : State) :
    forUpTo n (fun i t => forUpTo m (f i) t) s = forUpTo (n * m) (fun x => f (x / m) (x % m)) s := by
  induction n with
  | zero => simp [forUpTo]
  | succ n ih =>
    change forUpTo m (f n) (forUpTo n (fun i t => forUpTo m (f i) t) s) = _
    rw [ih, Nat.succ_mul, forUpTo_add]
    refine forUpTo_congr fun i t hi => ?_
    have hdiv : (n * m + i) / m = n := by
      rw [Nat.add_comm, Nat.add_mul_div_right _ _ hm, Nat.div_eq_of_lt hi, Nat.zero_add]
    have hmod : (n * m + i) % m = i := by
      rw [Nat.add_comm, Nat.add_mul_mod_self_right, Nat.mod_eq_of_lt hi]
    rw [hdiv, hmod]

/-- R190: the outputs of RUNI, where COEF and the window lie outside OUT. -/
theorem readWord_interpolate {d : Descriptor} (hL : 0 < d.factor.toNat) {pOut b : Nat} {s : State}
    (hc : ∀ p j, p < d.factor.toNat → j < subTaps d →
      d.coef.toNat + p + j * d.factor.toNat < pOut ∨
      pOut + b * d.factor.toNat ≤ d.coef.toNat + p + j * d.factor.toNat)
    (hx : ∀ n j, n < b → j < subTaps d →
      d.state.toNat + n + subTaps d - 1 - j < pOut ∨
      pOut + b * d.factor.toNat ≤ d.state.toNat + n + subTaps d - 1 - j) (a : Nat) :
    readWord a (interpolate d pOut b s) =
      if pOut ≤ a ∧ a < pOut + b * d.factor.toNat then
        w16 (dot (subTaps d)
          (fun j => memRead (d.coef.toNat + (a - pOut) % d.factor.toNat + j * d.factor.toNat) s)
          (fun j => memRead (d.state.toNat + (a - pOut) / d.factor.toNat + subTaps d - 1 - j) s))
      else readWord a s := by
  have hP : subTaps d < 4294967296 :=
    Nat.lt_of_le_of_lt (Nat.div_le_self _ _) d.taps.isLt
  have hloop : interpolate d pOut b s = forUpTo (b * d.factor.toNat)
      (fun m t => storeOutput (pOut + m) (subTaps d)
        (fun j => d.coef.toNat + m % d.factor.toNat + j * d.factor.toNat)
        (fun j => d.state.toNat + m / d.factor.toNat + subTaps d - 1 - j) t) s := by
    unfold interpolate
    rw [forUpTo_nested b _ hL]
    refine forUpTo_congr fun m t _ => ?_
    rw [Nat.add_assoc pOut, Nat.div_add_mod' m d.factor.toNat]
  rw [hloop]
  refine readWord_outputLoop hP
    (cA := fun m j => d.coef.toNat + m % d.factor.toNat + j * d.factor.toNat)
    (xA := fun m j => d.state.toNat + m / d.factor.toNat + subTaps d - 1 - j)
    (fun m j hm hj => ?_) (fun m j hm hj => ?_) a
  · exact hc _ j (Nat.mod_lt _ hL) hj
  · exact hx _ j (Nat.div_lt_of_lt_mul (by rwa [Nat.mul_comm] at hm)) hj

/-! ## Streams -/

@[simp] theorem length_words (base n : Nat) (s : State) : (words base n s).length = n := by
  simp [words]

theorem getElem?_words {base n : Nat} {s : State} {j : Nat} (hj : j < n) :
    (words base n s)[j]? = some (readWord (base + j) s) := by
  simp [words, hj]

@[simp] theorem streamIn_nil : streamIn [] = [] := rfl
@[simp] theorem streamIn_cons (r : State × State) (runs : List (State × State)) :
    streamIn (r :: runs) = inputBlock r.1 ++ streamIn runs := rfl

@[simp] theorem rundStream_nil (d : Descriptor) (h h' : List Sample) :
    RundStream d h [] h' = (h' = h) := rfl
@[simp] theorem runiStream_nil (d : Descriptor) (h h' : List Sample) :
    RuniStream d h [] h' = (h' = h) := rfl

@[simp] theorem rundStreamOut_nil : rundStreamOut [] = [] := rfl
@[simp] theorem rundStreamOut_cons (r : State × State) (runs : List (State × State)) :
    rundStreamOut (r :: runs) = words (outputBase r.1) (outputsD r.1) r.2 ++ rundStreamOut runs := rfl
@[simp] theorem runiStreamOut_nil : runiStreamOut [] = [] := rfl
@[simp] theorem runiStreamOut_cons (r : State × State) (runs : List (State × State)) :
    runiStreamOut (r :: runs) = words (outputBase r.1) (outputsI r.1) r.2 ++ runiStreamOut runs := rfl

end Sys2Proof.Machine
end

