-- ==== Sys2Proof/Laws/Exec.lean ====
section
/-! SUPPORT. What each command can answer, said once: an inversion lemma and a completion lemma per
meaning, and the fields of a state after a response. -/

namespace Sys2Proof.Machine

/-! ## Fields after a response -/

@[simp] theorem respond_args (r : Response) (s : State) : (respond r s).args = s.args := rfl
@[simp] theorem respond_cmd (r : Response) (s : State) : (respond r s).cmd = s.cmd := rfl
@[simp] theorem respond_status (r : Response) (s : State) :
    (respond r s).status = ⟨r, .noCause, s.status.liveD, s.status.liveI, s.status.cvs⟩ := rfl
@[simp] theorem respond_descD (r : Response) (s : State) : (respond r s).descD = s.descD := rfl
@[simp] theorem respond_descI (r : Response) (s : State) : (respond r s).descI = s.descI := rfl
@[simp] theorem respond_acc (r : Response) (s : State) : (respond r s).acc = s.acc := rfl
@[simp] theorem respond_mem (r : Response) (s : State) : (respond r s).mem = s.mem := rfl
@[simp] theorem respond_memWords (r : Response) (s : State) :
    (respond r s).memWords = s.memWords := rfl
@[simp] theorem respond_events (r : Response) (s : State) : (respond r s).events = s.events := rfl
@[simp] theorem respond_returned (r : Response) (s : State) :
    (respond r s).returned = s.returned := rfl
@[simp] theorem readWord_respond (r : Response) (s : State) (a : Nat) :
    readWord a (respond r s) = readWord a s := rfl

@[simp] theorem contractViolation_args (c : Cause) (s : State) :
    (contractViolation c s).args = s.args := rfl
@[simp] theorem contractViolation_cmd (c : Cause) (s : State) :
    (contractViolation c s).cmd = s.cmd := rfl
@[simp] theorem contractViolation_status (c : Cause) (s : State) :
    (contractViolation c s).status =
      ⟨.contractViolation, c, s.status.liveD, s.status.liveI, true⟩ := rfl
@[simp] theorem contractViolation_descD (c : Cause) (s : State) :
    (contractViolation c s).descD = s.descD := rfl
@[simp] theorem contractViolation_descI (c : Cause) (s : State) :
    (contractViolation c s).descI = s.descI := rfl
@[simp] theorem contractViolation_acc (c : Cause) (s : State) :
    (contractViolation c s).acc = s.acc := rfl
@[simp] theorem contractViolation_mem (c : Cause) (s : State) :
    (contractViolation c s).mem = s.mem := rfl
@[simp] theorem contractViolation_memWords (c : Cause) (s : State) :
    (contractViolation c s).memWords = s.memWords := rfl
@[simp] theorem contractViolation_events (c : Cause) (s : State) :
    (contractViolation c s).events = s.events := rfl
@[simp] theorem contractViolation_returned (c : Cause) (s : State) :
    (contractViolation c s).returned = s.returned := rfl
@[simp] theorem readWord_contractViolation (c : Cause) (s : State) (a : Nat) :
    readWord a (contractViolation c s) = readWord a s := rfl

/-! ## The initialisations -/

/-- INITD answers exactly one of two next states (R150). -/
theorem execInitd_cases {s t : State} (h : execInitd s = .next t) :
    (validD s.memWords (initdOperands s) ∧ t = respond .success (commitD (initdOperands s) s)) ∨
    (¬ validD s.memWords (initdOperands s) ∧ t = respond .invalidParameter s) := by
  unfold execInitd at h
  split_ifs at h with hv <;> cases h
  · exact .inl ⟨hv, rfl⟩
  · exact .inr ⟨hv, rfl⟩

/-- INITI answers exactly one of two next states (R180). -/
theorem execIniti_cases {s t : State} (h : execIniti s = .next t) :
    (validI s.memWords (initiOperands s) ∧ t = respond .success (commitI (initiOperands s) s)) ∨
    (¬ validI s.memWords (initiOperands s) ∧ t = respond .invalidParameter s) := by
  unfold execIniti at h
  split_ifs at h with hv <;> cases h
  · exact .inl ⟨hv, rfl⟩
  · exact .inr ⟨hv, rfl⟩

/-! ## The runs -/

/-- A next state of RUND is a rejection or the whole of the work (R157, R158). -/
theorem execRund_cases {s t : State} (h : execRund s = .next t) :
    (∃ c, rejectD s = some c ∧ t = contractViolation c s) ∨
    (s.runsD ∧ t = respond .success (runDecimator s)) := by
  unfold execRund at h
  cases hr : rejectD s with
  | some c =>
    rw [hr] at h
    cases h
    exact .inl ⟨c, rfl, rfl⟩
  | none =>
    rw [hr] at h
    simp only at h
    split_ifs at h with h1 h2
    cases h
    exact .inr ⟨⟨hr, h1, h2⟩, rfl⟩

/-- Where RUND executes normally it answers a next state. -/
theorem execRund_of_runsD {s : State} (h : s.runsD) :
    execRund s = .next (respond .success (runDecimator s)) := by
  obtain ⟨h1, h2, h3⟩ := h
  unfold execRund
  rw [h1]
  simp only
  rw [if_neg (not_not.mpr h2), if_neg (not_not.mpr h3)]

/-- A rejected RUND answers the contract violation of its cause (R158, R236). -/
theorem execRund_of_reject {s : State} {c : Cause} (h : rejectD s = some c) :
    execRund s = .next (contractViolation c s) := by
  unfold execRund
  rw [h]

/-- A next state of RUNI is a rejection or the whole of the work (R187, R188). -/
theorem execRuni_cases {s t : State} (h : execRuni s = .next t) :
    (∃ c, rejectI s = some c ∧ t = contractViolation c s) ∨
    (s.runsI ∧ t = respond .success (runInterpolator s)) := by
  unfold execRuni at h
  cases hr : rejectI s with
  | some c =>
    rw [hr] at h
    cases h
    exact .inl ⟨c, rfl, rfl⟩
  | none =>
    rw [hr] at h
    simp only at h
    split_ifs at h with h1 h2
    cases h
    exact .inr ⟨⟨hr, h1, h2⟩, rfl⟩

/-- Where RUNI executes normally it answers a next state. -/
theorem execRuni_of_runsI {s : State} (h : s.runsI) :
    execRuni s = .next (respond .success (runInterpolator s)) := by
  obtain ⟨h1, h2, h3⟩ := h
  unfold execRuni
  rw [h1]
  simp only
  rw [if_neg (not_not.mpr h2), if_neg (not_not.mpr h3)]

/-- A rejected RUNI answers the contract violation of its cause (R188, R236). -/
theorem execRuni_of_reject {s : State} {c : Cause} (h : rejectI s = some c) :
    execRuni s = .next (contractViolation c s) := by
  unfold execRuni
  rw [h]

/-! ## What acceptance gives -/

/-- An accepted RUND meets R158's five lines. -/
theorem rejectD_eq_none {s : State} (h : rejectD s = none) :
    s.status.liveD = true ∧ blockSize s % s.descD.factor.toNat = 0 ∧
      blockSize s ≤ s.descD.maxblk.toNat ∧ inputBase s ≠ 0 ∧ outputBase s ≠ 0 ∧
      inputBase s + blockSize s ≤ s.memWords ∧ outputBase s + outputsD s ≤ s.memWords := by
  unfold rejectD at h
  split_ifs at h with h1 h2 h3 h4 h5
  simp only [Bool.not_eq_false, not_not, not_lt, not_or] at *
  exact ⟨h1, h2, h3, h4.1, h4.2, h5.1, h5.2⟩

/-- An accepted RUNI meets R188's four lines. -/
theorem rejectI_eq_none {s : State} (h : rejectI s = none) :
    s.status.liveI = true ∧ blockSize s ≤ s.descI.maxblk.toNat ∧ inputBase s ≠ 0 ∧
      outputBase s ≠ 0 ∧ inputBase s + blockSize s ≤ s.memWords ∧
      outputBase s + outputsI s ≤ s.memWords := by
  unfold rejectI at h
  split_ifs at h with h1 h2 h3 h4
  simp only [Bool.not_eq_false, not_lt, not_or] at *
  exact ⟨h1, h2, h3.1, h3.2, h4.1, h4.2⟩

end Sys2Proof.Machine
end

