-- ==== Sys2Proof/Laws/PerInstr.lean ====
section
/-! SUPPORT. The per-command family: a command's fields are well formed and are those of its encoded
word (spec/30_encoding.md R82, R84). -/

namespace Sys2Proof.Laws.Encoding

/-- The fields of the encoded word are the command's own, and they are legal. -/
def Statement (i : Instr) : Prop :=
  fieldsOfWord (encode i) = fieldsOfInstr i ∧ (fieldsOfInstr i).wf = true

theorem initd : Statement .initd := by unfold Statement; decide
theorem rund : Statement .rund := by unfold Statement; decide
theorem initi : Statement .initi := by unfold Statement; decide
theorem runi : Statement .runi := by unfold Statement; decide

end Sys2Proof.Laws.Encoding
end

