-- ==== Sys2Proof/Tests/Slice0.lean ====
section
/-! SUPPORT. Tests. Expected values are the spec's own vectors (spec/95_test_vectors.md) or words
written out bit by bit from spec/30_encoding.md R82. -/

namespace Sys2Proof.Tests

open Sys2Proof.Machine

/-! ## Decoding: each word written out from R82 as ZERO (27 bits), CH (1 bit), FN (4 bits) -/

theorem test_decode_initd : (decode 0b000000000000000000000000000_0_0001#32).toOption = some .initd := by
  decide
theorem test_decode_rund : (decode 0b000000000000000000000000000_0_0010#32).toOption = some .rund := by
  decide
theorem test_decode_initi : (decode 0b000000000000000000000000000_1_0001#32).toOption = some .initi := by
  decide
theorem test_decode_runi : (decode 0b000000000000000000000000000_1_0010#32).toOption = some .runi := by
  decide
/-- R88: CMD's reset value encodes no command. -/
theorem test_decode_zero : (decode 0#32).toOption = none := by decide

/-! ## Ill-formed fields, one for each check of R82 -/

theorem test_wf_refuses_zero_field : (CmdFields.mk 1 0 2).wf = false := by decide
theorem test_wf_refuses_function : (CmdFields.mk 0 0 3).wf = false := by decide
theorem test_wf_accepts : (CmdFields.mk 0 1 2).wf = true := by decide

/-! ## A small machine -/

/-- The reset machine with argument registers, descriptors and memory set. -/
def unit (args : Args) (d i : Descriptor) (liveD liveI : Bool) (m : Memory) : State :=
  { State.reset with
    args := args, descD := d, descI := i, mem := m
    status := ⟨.success, .noCause, liveD, liveI, false⟩ }

/-- One property of the next state of an outcome, false where there is none. -/
def nextIs (o : Host.Outcome State Fault Refusal) (p : State → Bool) : Bool :=
  match o with
  | .next s => p s
  | .fault _ => false
  | .refused _ => false

/-! ## INITD and INITI: spec/95_test_vectors.md 2.3, 2.4 -/

/-- 2.3, row 1. -/
theorem test_initd_success :
    nextIs (exec .initd (unit ⟨4, 2, 0x100, 0x200, 8⟩ .zero .zero false false []))
      (fun t => t.descD = ⟨4, 2, 0x100, 0x200, 8⟩ ∧ statusWord t.status = 0x00000100) = true := by
  decide
/-- 2.3, "4086": the state region passes MEM_WORDS by one word. -/
theorem test_initd_state_range :
    nextIs (exec .initd (unit ⟨4, 2, 0x100, 4086, 8⟩ .zero .zero false false []))
      (fun t => t.descD = .zero ∧ statusWord t.status = 0x00000001) = true := by
  decide
/-- 2.4, row 1: the factor comes first. -/
theorem test_initi_success :
    nextIs (exec .initi (unit ⟨2, 4, 0x100, 0x300, 8⟩ .zero .zero false false []))
      (fun t => t.descI = ⟨4, 2, 0x100, 0x300, 8⟩ ∧ statusWord t.status = 0x00000200) = true := by
  decide
/-- 2.4, row 5: INITD's operand order is answered INVALID_PARAMETER. -/
theorem test_initi_swapped :
    nextIs (exec .initi (unit ⟨4, 2, 0x100, 0x300, 8⟩ .zero .zero false false []))
      (fun t => t.descI = .zero ∧ statusWord t.status = 0x00000001) = true := by
  decide

/-! ## RUND and RUNI: spec/95_test_vectors.md 2.5.2, 2.6.2, and the rejections of 2.5.1 -/

/-- Coefficients 16384, 8192, 4096, 2048 at 0x100. -/
def coefs : Memory := [(0x100, 0x4000), (0x101, 0x2000), (0x102, 0x1000), (0x103, 0x0800)]

/-- 2.5.2, row 1: the state RUND runs in. -/
def rundUnit : State :=
  unit ⟨0x300, 0x400, 4, 0, 0⟩ ⟨4, 2, 0x100, 0x200, 8⟩ .zero true false
    (coefs ++ [(0x200, 0), (0x201, 0), (0x202, 0),
      (0x300, 1000), (0x301, 2000), (0x302, 3000), (0x303, 4000)])

/-- 2.5.2, row 1: outputs (500, 2125), history (2000, 3000, 4000). -/
theorem test_rund_values :
    nextIs (exec .rund rundUnit)
      (fun t => readWord 0x400 t = 500 ∧ readWord 0x401 t = 2125 ∧ readWord 0x200 t = 2000 ∧
        readWord 0x201 t = 3000 ∧ readWord 0x202 t = 4000) = true := by
  decide +kernel
/-- 2.5.1: (0x300, 0x400, 9) has causes 3 and 4, and the lower number wins. -/
theorem test_rund_cause_priority :
    nextIs (exec .rund (unit ⟨0x300, 0x400, 9, 0, 0⟩ ⟨4, 2, 0x100, 0x200, 8⟩ .zero true false []))
      (fun t => statusWord t.status = 0x00000532 ∧ t.mem = []) = true := by
  decide

/-- 2.6.2, row 1: the state RUNI runs in. -/
def runiUnit : State :=
  unit ⟨0x300, 0x600, 2, 0, 0⟩ .zero ⟨4, 2, 0x100, 0x500, 8⟩ false true
    (coefs ++ [(0x300, 1000), (0x301, 2000), (0x500, 0)])

/-- 2.6.2, row 1: outputs (500, 250, 1125, 563), history (2000). -/
theorem test_runi_values :
    nextIs (exec .runi runiUnit)
      (fun t => readWord 0x600 t = 500 ∧ readWord 0x601 t = 250 ∧ readWord 0x602 t = 1125 ∧
        readWord 0x603 t = 563 ∧ readWord 0x500 t = 2000) = true := by
  decide +kernel
/-- 2.6.1: (0x300, 4089, 4) passes MEM_WORDS by one output word. -/
theorem test_runi_range :
    nextIs (exec .runi (unit ⟨0x300, 4089, 4, 0, 0⟩ .zero ⟨4, 2, 0x100, 0x500, 8⟩ false true []))
      (fun t => statusWord t.status = 0x00000662) = true := by
  decide

/-! ## The host interface, scripts and the step -/

/-- R92's two worked encodings. -/
theorem test_script_encodings :
    lineTransaction (.cmd .runi) = .hwr 0x00000014 0x00000012 ∧
    lineTransaction (.wr .a3 0x200) = .hwr 0x0000000C 0x00000200 := by decide
/-- R216's example: -1 is stored as 0xFFFF. -/
theorem test_mw_negative : lineTransaction (.mw 0x101 (-1)) = .mwr 0x101 0xFFFF := by decide
/-- R262: a RUN before any initialisation is NOT_LIVE: RESP 2, CAUSE 2, CVS 1. -/
theorem test_step_rund_at_reset :
    nextIs (step (State.reset.withFetchWord 32 0x2)) (fun t => statusWord t.status = 0x00000422) = true := by
  decide
/-- INITI with zero operands at reset: L = 0 is INVALID_PARAMETER. -/
theorem test_step_initi_at_reset :
    nextIs (step (State.reset.withFetchWord 32 0x11)) (fun t => statusWord t.status = 0x00000001) = true := by
  decide
/-- R88: an illegal word is stored in CMD and answered with cause 1. -/
theorem test_step_illegal_word :
    nextIs (step (State.reset.withFetchWord 32 0x13))
      (fun t => t.cmd = 0x13 ∧ statusWord t.status = 0x00000412) = true := by
  decide
theorem test_decodeTableWord :
    decodeTableWord 32 0x12 = some .runi ∧ decodeTableWord 8 0x12 = some .runi ∧
    decodeTableWord 32 0x3 = none := by decide
/-- R212's example: STATUS reads 0x00000100 after a successful INITD. -/
theorem test_hrd_status :
    nextIs (hostReadReg 0x18 (unit ⟨4, 2, 0x100, 0x200, 8⟩ ⟨4, 2, 0x100, 0x200, 8⟩ .zero true false []))
      (fun t => t.returned = [.reg 0x00000100]) = true := by
  decide

/-! ## Arithmetic: spec/95_test_vectors.md 2.1.2 to 2.1.4 -/

theorem test_rnd_ties : rnd 16384 = 1 ∧ rnd (-16384) = 0 ∧ rnd 49152 = 2 ∧ rnd (-49152) = -1 ∧
    rnd 16383 = 0 ∧ rnd (-16385) = -1 := by decide
theorem test_mac_saturates :
    (mac 1 1 { State.reset with acc := 0x7FFFFFFFFFFFFFFF }).acc = 0x7FFFFFFFFFFFFFFF := by decide
theorem test_rndsat_two_worst_products :
    rndsat (mac (-32768) (-32768) (mac (-32768) (-32768) State.reset)) = 32767 := by decide

/-! ## Witnesses: for each statement with hypotheses, a state and operands that meet them together -/

/-- The machine with MEM_WORDS words and argument registers, both channels live or not. -/
def withArgs (args : Args) (memWords : Nat) : State := { State.reset with args := args, memWords := memWords }

/-- DecodeSelectsByExactEquality: a well-formed command, and a word that decodes. -/
theorem witness_decode : Instr.wf .initi = true ∧ (decode 0x00000011#32).toOption = some .initi := by
  decide
/-- FieldsAndWordsAgree: a word with legal fields, and one without. -/
theorem witness_fields :
    (fieldsOfWord 0x00000012#32).wf = true ∧ (fieldsOfWord 0x80000002#32).wf = false := by decide
/-- IllegalWordIsRejectedWhole: the words next to the four, and one with only bit 31 too many. -/
theorem witness_illegal_words :
    [0x0#32, 0x3#32, 0x10#32, 0x13#32, 0x80000001#32].all (fun w => (decode w).toOption = none) = true := by
  decide
/-- StepRunsTheDecodedCommand and StepTakesEventsInOrder: a pending command, and no event. -/
theorem witness_step :
    (State.reset.withFetchWord 32 2).events = [.host (.hwr 0x14#32 2#32)] ∧
    (decode 2#32).toOption = some .rund ∧ State.reset.events = [] := by decide
/-- ReservedOffsetsAreInert: one offset for each clause, at the ends of its range. -/
theorem witness_reserved_offsets :
    [0x1C#32, 0x34#32, 0x38#32, 0x3C#32, 0x54#32, 0x01#32, 0x53#32, 0xFFFFFFFF#32].all
      (fun off => off.toNat % 4 ≠ 0 ∨ off = 0x1C#32 ∨ off = 0x34#32 ∨ off = 0x38#32 ∨ off = 0x3C#32 ∨
        0x54 ≤ off.toNat) = true := by decide
/-- 2.3, row 1: the operands of a successful INITD, and 2.4, row 1, of a successful INITI. -/
def initdUnit : State := withArgs ⟨4, 2, 0x100, 0x200, 8⟩ 4096
def initiUnit : State := withArgs ⟨2, 4, 0x100, 0x300, 8⟩ 4096
/-- ReadOnlyRegistersKeepTheirValue, ResponsesWriteStatus: a CMD write that changes D, one that changes I,
and with them STATUS. -/
theorem witness_descriptor_changes :
    nextIs (transact (.hwr 0x14#32 1#32) initdUnit)
      (fun t => t.descD ≠ initdUnit.descD ∧ t.status ≠ initdUnit.status ∧
        t.status.liveD ≠ initdUnit.status.liveD) = true ∧
    nextIs (transact (.hwr 0x14#32 0x11#32) initiUnit)
      (fun t => t.descI ≠ initiUnit.descI ∧ t.status.liveI ≠ initiUnit.status.liveI) = true := by
  decide
/-- HostMemoryWriteEffect, HostMemoryReadValue: the last word of MEM, and the address after it. -/
theorem witness_memory_edge :
    (4095#32).toNat < State.reset.memWords ∧ ¬ (4096#32).toNat < State.reset.memWords := by decide
/-- FillPlacesTheWords: two words that end at the end of MEM. -/
theorem witness_fill :
    State.reset.events = [] ∧ 4094 + [1, (-1 : Int)].length ≤ State.reset.memWords ∧
    State.reset.memWords ≤ 4294967296 ∧ [1, (-1 : Int)][1]? = some (-1) := by decide
/-- R91 with R9: `zero 0x200, 2` is two MWRs of 0, and `zero 0x200, 0` no line. -/
theorem test_zero_lines :
    (expand (.zero 0x200 2)).map lineTransaction = [.mwr 0x200 0, .mwr 0x201 0] ∧
    expand (.zero 0x200 0) = [] := by decide
/-- FillPlacesTheWords, `zero`: two words that end at the end of MEM, and none. -/
theorem witness_zero :
    State.reset.events = [] ∧ 4094 + 2 ≤ State.reset.memWords ∧ 4096 + 0 ≤ State.reset.memWords := by decide
/-- HostMemoryWriteEffect: each width a register access must not have, refused. -/
theorem witness_odd_access :
    [OddWidth.byte, .half, .double].all (fun w =>
      match step { State.reset with events := [.oddAccess 0x18 w] } with
      | .refused r => decide (r = .registerAccessWidth)
      | _ => false) = true := by decide
/-- ResetEventEffect: an event that is no reset, in a state with CVS and both live bits set. -/
theorem witness_sticky :
    nextIs (perform (.host (.hrd 0x18)) { State.reset with
      status := ⟨.contractViolation, .notLive, true, true, true⟩ }) (fun _ => true) = true ∧
    Event.host (.hrd 0x18) ≠ .reset := by decide
/-- ResponsesWriteStatus, WhichCommandGivesWhichResponse, ViolationChangesOnlyStatus: a violation, and
the one with cause 3 (2.5.1: a block of 3 with M = 2). -/
theorem witness_violations :
    nextIs (exec .runi State.reset) (fun t => t.status.resp = .contractViolation) = true ∧
    nextIs (exec .rund (unit ⟨0x300, 0x400, 3, 0, 0⟩ ⟨4, 2, 0x100, 0x200, 8⟩ .zero true false []))
      (fun t => t.status.cause = .blockNotMultiple) = true := by decide
/-- InitdCommitsValidOperands: both regions end exactly at MEM_WORDS, from 0x100 with T = 4 in a MEM of
0x104 words and from 249 with T + Bmax - 1 = 11. -/
theorem witness_initd_valid :
    validD 0x104 (initdOperands (withArgs ⟨4, 2, 0x100, 249, 8⟩ 0x104)) ∧
    validD 4096 (initdOperands initdUnit) := by decide
/-- InitdFailureCommitsNothing: each of the nine conditions fails alone. -/
theorem witness_initd_invalid :
    [Args.mk 4 0 0x100 0x200 8, ⟨0, 2, 0x100, 0x200, 8⟩, ⟨5, 2, 0x100, 0x200, 8⟩, ⟨4, 2, 0, 0x200, 8⟩,
      ⟨4, 2, 0x100, 0, 8⟩, ⟨4, 2, 0x100, 0x200, 0⟩, ⟨4, 2, 0x100, 0x200, 7⟩, ⟨4, 2, 4093, 0x200, 8⟩,
      ⟨4, 2, 0x100, 4086, 8⟩].all
      (fun a => ¬ validD 4096 (initdOperands (withArgs a 4096))) = true := by decide
/-- InitiCommitsValidOperands: the state region of T div L + Bmax - 1 = 9 words ends at MEM_WORDS. -/
theorem witness_initi_valid :
    validI 0x104 (initiOperands (withArgs ⟨2, 4, 0x100, 251, 8⟩ 0x104)) ∧
    validI 4096 (initiOperands initiUnit) := by decide
/-- InitiFailureCommitsNothing: each of the eight conditions fails alone. -/
theorem witness_initi_invalid :
    [Args.mk 0 4 0x100 0x300 8, ⟨2, 0, 0x100, 0x300, 8⟩, ⟨3, 4, 0x100, 0x300, 8⟩, ⟨2, 4, 0, 0x300, 8⟩,
      ⟨2, 4, 0x100, 0, 8⟩, ⟨2, 4, 0x100, 0x300, 0⟩, ⟨2, 4, 4093, 0x300, 8⟩, ⟨2, 4, 0x100, 4088, 8⟩].all
      (fun a => ¬ validI 4096 (initiOperands (withArgs a 4096))) = true := by decide

/-- A live decimator of 4 taps, M = 2, Bmax = 8 with the three operands of a run. -/
def liveD (inp out b : Word) : State :=
  unit ⟨inp, out, b, 0, 0⟩ ⟨4, 2, 0x100, 0x200, 8⟩ .zero true false []
/-- A live interpolator of 4 taps, L = 2, Bmax = 8 with the three operands of a run. -/
def liveI (inp out b : Word) : State :=
  unit ⟨inp, out, b, 0, 0⟩ .zero ⟨4, 2, 0x100, 0x500, 8⟩ false true []

/-- RundAcceptance: each cause at its boundary, and none where the regions end exactly at MEM_WORDS. -/
theorem witness_rund_acceptance :
    rejectD State.reset = some .notLive ∧ rejectD (liveD 0x300 0x400 3) = some .blockNotMultiple ∧
    rejectD (liveD 0x300 0x400 10) = some .blockTooLarge ∧ rejectD (liveD 0 0x400 8) = some .nullBuffer ∧
    rejectD (liveD 0x300 0 8) = some .nullBuffer ∧ rejectD (liveD 4089 0x400 8) = some .addressRange ∧
    rejectD (liveD 0x300 4093 8) = some .addressRange ∧ rejectD (liveD 4088 0x400 8) = none ∧
    rejectD (liveD 0x300 4092 8) = none := by decide
/-- RuniAcceptance: each cause at its boundary, and none where the regions end exactly at MEM_WORDS. -/
theorem witness_runi_acceptance :
    rejectI State.reset = some .notLive ∧ rejectI (liveI 0x300 0x600 9) = some .blockTooLarge ∧
    rejectI (liveI 0 0x600 8) = some .nullBuffer ∧ rejectI (liveI 0x300 0 8) = some .nullBuffer ∧
    rejectI (liveI 4089 0x600 8) = some .addressRange ∧
    rejectI (liveI 0x300 4081 8) = some .addressRange ∧ rejectI (liveI 4088 0x600 8) = none ∧
    rejectI (liveI 0x300 4080 8) = none := by decide
/-- OverlappingRegionsAreRefused: the output over the input's last word, the output over the last
history word, and the input over the last coefficient. -/
theorem witness_overlap :
    [liveD 0x300 0x303 4, liveD 0x300 0x202 4, liveD 0x103 0x400 4].all
      (fun s => rejectD s = none ∧ validD s.memWords s.descD ∧ ¬ (regionsD s).pairwiseDisjoint) = true ∧
    [liveI 0x300 0x301 2, liveI 0x300 0x500 2, liveI 0x103 0x600 2].all
      (fun s => rejectI s = none ∧ validI s.memWords s.descI ∧ ¬ (regionsI s).pairwiseDisjoint) = true := by
  decide
/-- Two live descriptors with factor 0. -/
def badDescriptors : State :=
  unit ⟨0x300, 0x400, 0, 0, 0⟩ ⟨4, 0, 0x100, 0x200, 8⟩ ⟨4, 0, 0x100, 0x200, 8⟩ true true []
/-- CommandsStopOnlyOnOverlap: a live descriptor no initialisation commits, for each channel, and a state
that meets the invariant. -/
theorem witness_stops :
    (rejectD badDescriptors = none ∧ ¬ validD badDescriptors.memWords badDescriptors.descD) ∧
    (rejectI badDescriptors = none ∧ ¬ validI badDescriptors.memWords badDescriptors.descI) ∧
    (liveD 0x300 0x400 4).Inv := by decide
/-- RundResult, RundOutputs, RundFrame, StateRegionAfterRun, HistoryIsEndOfStream, and with a zero history
RundIsDecimatedConvolution: where RUND executes normally, with an output. -/
theorem witness_runsD :
    rundUnit.runsD ∧ 1 < outputsD rundUnit ∧
    (∀ j, j < historyD rundUnit.descD → memLookup rundUnit.mem (rundUnit.descD.state.toNat + j) = some 0) := by
  decide
theorem witness_rund_next : ∃ t, exec .rund rundUnit = .next t :=
  ⟨_, execRund_of_runsD witness_runsD.1⟩
/-- RuniResult, RuniOutputs, RuniFrame, and with a zero history RuniIsZeroStuffedConvolution: where RUNI
executes normally, with outputs of both phases. -/
theorem witness_runsI :
    runiUnit.runsI ∧ 3 < outputsI runiUnit ∧
    (∀ j, j < historyI runiUnit.descI → memLookup runiUnit.mem (runiUnit.descI.state.toNat + j) = some 0) := by
  decide
theorem witness_runi_next : ∃ t, exec .runi runiUnit = .next t :=
  ⟨_, execRuni_of_runsI witness_runsI.1⟩
/-- RundResult at the edge: no history (T = M = 1), and the output region ending at MEM_WORDS. -/
theorem witness_runsD_edge :
    (unit ⟨0x300, 4088, 8, 0, 0⟩ ⟨1, 1, 0x100, 0x200, 8⟩ .zero true false []).runsD ∧
    (unit ⟨0x300, 4080, 8, 0, 0⟩ .zero ⟨2, 2, 0x100, 0x200, 8⟩ false true []).runsI := ⟨by decide, by decide⟩
/-- EmptyBlockLeavesMemory: B = 0, both channels. -/
theorem witness_empty_block :
    (liveD 0x300 0x400 0).args.a2 = 0 ∧ (liveD 0x300 0x400 0).runsD ∧
    (liveI 0x300 0x600 0).args.a2 = 0 ∧ (liveI 0x300 0x600 0).runsI :=
  ⟨by decide, by decide, by decide, by decide⟩
/-- OnlyAcceptedRunsTouchMemory: an accepted initialisation, a failed one and a rejected RUN. -/
theorem witness_untouched :
    nextIs (exec .initd initdUnit) (fun t => t.status.resp = .success) = true ∧
    nextIs (exec .initi initdUnit) (fun t => t.status.resp = .invalidParameter) = true ∧
    nextIs (exec .rund initdUnit) (fun t => t.status.resp ≠ .success) = true := by decide
/-- RundContinuity: a stream of 4 in one block, and in blocks of 2, 0 and 2. -/
theorem witness_rund_continuity :
    Config.MemWordsLegal rundUnit.memWords ∧ [2, 0, 2].sum < 4294967296 ∧
    nextIs (exec .rund (withBlock [2, 0, 2].sum rundUnit)) (fun u => u.status.resp = .success) = true ∧
    (feedRund [2, 0, 2] rundUnit).isSome = true := by decide
/-- RuniContinuity: a stream of 2 in one block, and in blocks of 1, 0 and 1. -/
theorem witness_runi_continuity :
    Config.MemWordsLegal runiUnit.memWords ∧ [1, 0, 1].sum < 4294967296 ∧
    nextIs (exec .runi (withBlock [1, 0, 1].sum runiUnit)) (fun u => u.status.resp = .success) = true ∧
    (feedRuni [1, 0, 1] runiUnit).isSome = true := by decide
/-- The next state of a RUND, and of a RUNI, that executes normally. -/
def afterRund (s : State) : State := respond .success (runDecimator s)
def afterRuni (s : State) : State := respond .success (runInterpolator s)
theorem exec_afterRund {s : State} (h : s.runsD) : exec .rund s = .next (afterRund s) := execRund_of_runsD h
theorem exec_afterRuni {s : State} (h : s.runsI) : exec .runi s = .next (afterRuni s) := execRuni_of_runsI h
/-- Program P1's way of splitting: the host refills the input buffer at 0x300 with the next block and moves
the output base on. -/
def refill (out b : Word) (vs : List Sample) (s : State) : State :=
  { s with args := ⟨0x300, out, b, 0, 0⟩
           mem := memInsert (memInsert s.mem 0x300 (vs.getD 0 0)) 0x301 (vs.getD 1 0) }
/-- The stream (1000, 2000, 3000, 4000) in blocks of 2, the second written over the first. -/
def rundSplit : List (State × State) :=
  let s := withBlock 2 rundUnit
  let s' := refill 0x401 2 [3000, 4000] (afterRund s)
  [(s, afterRund s), (s', afterRund s')]
/-- The stream (1000, 2000) in blocks of 1, the second written over the first. -/
def runiSplit : List (State × State) :=
  let s := withBlock 1 runiUnit
  let s' := refill 0x602 1 [2000] (afterRuni s)
  [(s, afterRuni s), (s', afterRuni s')]
/-- HistoryIsEndOfStream, RundContinuity: both ways of running one stream, the coefficients in place, with
the history (2000, 3000, 4000) of 2.5.2 at the end. -/
theorem witness_rund_streams :
    RundStream rundUnit.descD [0, 0, 0] [(rundUnit, afterRund rundUnit)] [2000, 3000, 4000] ∧
    RundStream rundUnit.descD [0, 0, 0] rundSplit [2000, 3000, 4000] := by
  refine ⟨⟨rfl, ?_, by decide, exec_afterRund (by decide), ?_⟩,
    rfl, ?_, by decide, exec_afterRund (by decide),
    ?_, ?_, by decide +kernel, exec_afterRund (by decide +kernel), ?_⟩ <;>
    (try rw [rundStream_nil]) <;> decide +kernel
theorem witness_rund_streams_agree :
    streamIn [(rundUnit, afterRund rundUnit)] = streamIn rundSplit ∧
    ((rundUnit, afterRund rundUnit) :: rundSplit).all (fun r =>
      (List.range 4).all (fun k => decide (memLookup r.1.mem (0x100 + k) = memLookup coefs (0x100 + k)))) = true :=
  ⟨by decide +kernel, by decide +kernel⟩
/-- HistoryIsEndOfStream, RuniContinuity: as above, with the history (2000) of 2.6.2 at the end. -/
theorem witness_runi_streams :
    RuniStream runiUnit.descI [0] [(runiUnit, afterRuni runiUnit)] [2000] ∧
    RuniStream runiUnit.descI [0] runiSplit [2000] := by
  refine ⟨⟨rfl, ?_, by decide, exec_afterRuni (by decide), ?_⟩,
    rfl, ?_, by decide, exec_afterRuni (by decide),
    ?_, ?_, by decide +kernel, exec_afterRuni (by decide +kernel), ?_⟩ <;>
    (try rw [runiStream_nil]) <;> decide +kernel
theorem witness_runi_streams_agree :
    streamIn [(runiUnit, afterRuni runiUnit)] = streamIn runiSplit ∧
    ((runiUnit, afterRuni runiUnit) :: runiSplit).all (fun r =>
      (List.range 4).all (fun k => decide (memLookup r.1.mem (0x100 + k) = memLookup coefs (0x100 + k)))) = true :=
  ⟨by decide +kernel, by decide +kernel⟩
/-- 2.5.2, 2.6.2: the outputs of the split streams are those of the whole ones. -/
theorem test_split_outputs :
    rundStreamOut rundSplit = [500, 2125] ∧ runiStreamOut runiSplit = [500, 250, 1125, 563] :=
  ⟨by decide +kernel, by decide +kernel⟩
/-- UnityFactorChannelsAgree: one descriptor with factor 1 in both channels. -/
def unityUnit : State :=
  unit ⟨0x300, 0x400, 2, 0, 0⟩ ⟨3, 1, 0x100, 0x200, 8⟩ ⟨3, 1, 0x100, 0x200, 8⟩ true true []
theorem witness_unity :
    unityUnit.descD = unityUnit.descI ∧ unityUnit.descI.factor = 1 ∧ unityUnit.runsD ∧ unityUnit.runsI :=
  ⟨by decide, by decide, by decide, by decide⟩
theorem witness_unity_next :
    (∃ t, exec .rund unityUnit = .next t) ∧ ∃ u, exec .runi unityUnit = .next u :=
  ⟨⟨_, execRund_of_runsD witness_unity.2.2.1⟩, ⟨_, execRuni_of_runsI witness_unity.2.2.2⟩⟩
/-- ProductRange at its corners (2.1.1). -/
theorem witness_product : mul (-32768) (-32768) = 1073741824 ∧ mul (-32768) 32767 = -1073709056 := by decide
/-- RoundThenSaturate: the accumulator values where the clauses meet (2.1.2). -/
theorem witness_rndsat :
    [(1073725439 : Int), 1073725440, -1073725441, -1073758208, -1073758209].map
      (fun a => rndsat { State.reset with acc := BitVec.ofInt 64 a }) =
    [32767, 32767, -32768, -32768, -32768] := by decide
/-- DotProperties: the worst cases for one term and for two (2.1.4). -/
theorem witness_dot :
    dot 1 (fun _ => -32768) (fun _ => 32767) = -32767 ∧ dot 2 (fun _ => -32768) (fun _ => 32767) = -32768 ∧
    dot 2 (fun _ => -32768) (fun _ => -32768) = 32767 := by decide
/-- StepKeepsInvariant, DescriptorInvariant: a state that meets the invariant and steps, from not live to
live. -/
theorem witness_invariant :
    (initdUnit.withFetchWord 32 1).Inv ∧
    nextIs (step (initdUnit.withFetchWord 32 1)) (fun t => t.status.liveD) = true := by decide
/-- NullWordIsNeverTouched: a canonical memory. -/
theorem witness_canonical : Memory.wf rundUnit.mem ∧ Memory.wf runiUnit.mem := by decide
/-- RundReadsOnlyItsRegions, RuniReadsOnlyItsRegions: a different memory that agrees outside the null
word. -/
theorem witness_same_regions (s : State) (a : Nat) (h : 0 < a) :
    readWord a { s with mem := (0, 7) :: s.mem } = readWord a s := by
  simp [readWord, memLookup, Nat.pos_iff_ne_zero.mp h]
theorem witness_same_regions_runs :
    ({ rundUnit with mem := (0, 7) :: rundUnit.mem } : State).runsD ∧
    ({ runiUnit with mem := (0, 7) :: runiUnit.mem } : State).runsI ∧
    0 < rundUnit.descD.coef.toNat ∧ 0 < rundUnit.descD.state.toNat ∧ 0 < inputBase rundUnit :=
  ⟨by decide, by decide, by decide, by decide, by decide⟩

/-- Two units with a host write to sample memory pending on each. -/
def twoUnits (a b : Word) : System :=
  ⟨[{ State.reset with events := [.host (.mwr a 1)] }, { State.reset with events := [.host (.mwr b 2)] }], []⟩
/-- RacingUnitsAreRefused: both write word 5. -/
theorem witness_race :
    (unitAt (twoUnits 5 5) 0).isSome = true ∧ (unitAt (twoUnits 5 5) 1).isSome = true ∧
    races (nextFootprint { State.reset with events := [.host (.mwr 5 1)] })
      (nextFootprint { State.reset with events := [.host (.mwr 5 2)] }) = true := by decide
/-- IndependentUnitsCommute: the two units answer on their own and share no word. -/
theorem witness_independent_alone :
    (match stepUnit 0 (twoUnits 5 6), stepUnit 1 (twoUnits 5 6) with
      | .next _, .next _ => true
      | _, _ => false) = true ∧
    ((unitAt (twoUnits 5 6) 0).map nextFootprint = some ⟨[], [⟨5, 1⟩]⟩ ∧
      (unitAt (twoUnits 5 6) 1).map nextFootprint = some ⟨[], [⟨6, 1⟩]⟩) := by decide
/-- IndependentUnitsCommute: words 5 and 6, in either order. -/
theorem witness_independent :
    (match stepTogether 0 1 (twoUnits 5 6), stepTogether 1 0 (twoUnits 5 6) with
      | .next u, .next v => decide (u.mem = [(5, 1), (6, 2)] ∧ v.mem = [(5, 1), (6, 2)])
      | _, _ => false) = true := by decide

end Sys2Proof.Tests
end

section
/-! SUPPORT. What a step can answer, said once (spec/44_host_interface.md R211, R213), and the invariants
every step keeps (spec/10_state.md R24, R27; spec/20_memory.md R50, R52). -/

namespace Sys2Proof.Machine

/-! ## The commands and the step: one inversion lemma each -/

/-- The next states a command can answer, each with the condition it is answered under. -/
inductive Answers (s : State) : Instr → State → Prop where
  | initdCommits (hv : validD s.memWords (initdOperands s)) :
      Answers s .initd (respond .success (commitD (initdOperands s) s))
  | initdFails (hv : ¬ validD s.memWords (initdOperands s)) :
      Answers s .initd (respond .invalidParameter s)
  | rundRejected {c : Cause} (hc : rejectD s = some c) : Answers s .rund (contractViolation c s)
  | rundRuns (hr : s.runsD) : Answers s .rund (respond .success (runDecimator s))
  | initiCommits (hv : validI s.memWords (initiOperands s)) :
      Answers s .initi (respond .success (commitI (initiOperands s) s))
  | initiFails (hv : ¬ validI s.memWords (initiOperands s)) :
      Answers s .initi (respond .invalidParameter s)
  | runiRejected {c : Cause} (hc : rejectI s = some c) : Answers s .runi (contractViolation c s)
  | runiRuns (hr : s.runsI) : Answers s .runi (respond .success (runInterpolator s))

theorem answers_of_exec {i : Instr} {s t : State} (h : exec i s = .next t) : Answers s i t := by
  cases i with
  | initd =>
    obtain ⟨hv, rfl⟩ | ⟨hv, rfl⟩ := execInitd_cases h
    · exact .initdCommits hv
    · exact .initdFails hv
  | rund =>
    obtain ⟨c, hc, rfl⟩ | ⟨hr, rfl⟩ := execRund_cases h
    · exact .rundRejected hc
    · exact .rundRuns hr
  | initi =>
    obtain ⟨hv, rfl⟩ | ⟨hv, rfl⟩ := execIniti_cases h
    · exact .initiCommits hv
    · exact .initiFails hv
  | runi =>
    obtain ⟨c, hc, rfl⟩ | ⟨hr, rfl⟩ := execRuni_cases h
    · exact .runiRejected hc
    · exact .runiRuns hr

/-- A write to CMD runs the command of the stored word, or is the violation of cause 1 (R213, R88). -/
theorem writeCommand_cases {d : Word} {s t : State} (h : writeCommand d s = .next t) :
    (∃ i, decode d = .ok i ∧ exec i (s.setCmd d) = .next t) ∨
    (decode d = .error .illegalCommandWord ∧
      t = contractViolation .illegalCommand (s.setCmd d)) := by
  unfold writeCommand at h
  split at h
  next i hi => exact .inl ⟨i, hi, h⟩
  next he => exact .inr ⟨he, by cases h; rfl⟩

/-- A register write sets argument registers, is a write to CMD, or does nothing (R211). -/
theorem hostWriteReg_cases {off d : Word} {s t : State} (h : hostWriteReg off d s = .next t) :
    (∃ v, t = s.setArgs v) ∨ (regAt off = some .cmd ∧ writeCommand d s = .next t) ∨ t = s := by
  unfold hostWriteReg at h
  split at h
  case h_6 hr => exact .inr (.inl ⟨hr, h⟩)
  case h_7 => exact .inr (.inr (by cases h; rfl))
  all_goals exact .inl ⟨_, by cases h; rfl⟩

/-- Inside MEM a host write stores its word; it answers nothing else (R216). -/
theorem hostWriteMem_cases {a : Word} {w : Sample} {s t : State} (h : hostWriteMem a w s = .next t) :
    a.toNat < s.memWords ∧ t = writeWord a.toNat w s := by
  unfold hostWriteMem at h
  split_ifs at h with ha
  exact ⟨ha, by cases h; rfl⟩

/-- A host read of MEM changes the returned data alone (R217). -/
theorem hostReadMem_cases {a : Word} {s t : State} (h : hostReadMem a s = .next t) :
    a.toNat < s.memWords ∧ t = s.setReturned (.word (readWord a.toNat s) :: s.returned) := by
  unfold hostReadMem at h
  split_ifs at h with ha
  exact ⟨ha, by cases h; rfl⟩

/-! ## Invariants of the step -/

/-- A property that everything a step is made of keeps: the host's register and memory accesses, reset,
the illegal command word and the four commands. -/
structure StepInvariant (P : State → Prop) : Prop where
  setArgs : ∀ s v, P s → P (s.setArgs v)
  setCmd : ∀ s v, P s → P (s.setCmd v)
  setEvents : ∀ s v, P s → P (s.setEvents v)
  setReturned : ∀ s v, P s → P (s.setReturned v)
  write : ∀ s a w, a < s.memWords → P s → P (writeWord a w s)
  reset : ∀ s, P s → P (resetUnit s)
  illegal : ∀ s, P s → P (contractViolation .illegalCommand s)
  command : ∀ {s i t}, Answers s i t → P s → P t

namespace StepInvariant

variable {P : State → Prop} {s t : State}

theorem of_hostWriteReg (hP : StepInvariant P) {off d : Word} (hs : P s)
    (h : hostWriteReg off d s = .next t) : P t := by
  obtain ⟨v, rfl⟩ | ⟨-, hcmd⟩ | rfl := hostWriteReg_cases h
  · exact hP.setArgs s v hs
  · obtain ⟨i, -, hi⟩ | ⟨-, rfl⟩ := writeCommand_cases hcmd
    · exact hP.command (answers_of_exec hi) (hP.setCmd s d hs)
    · exact hP.illegal _ (hP.setCmd s d hs)
  · exact hs

theorem of_transact (hP : StepInvariant P) {x : Transaction} (hs : P s)
    (h : transact x s = .next t) : P t := by
  cases x with
  | hwr off d => exact hP.of_hostWriteReg hs h
  | hrd off => cases h; exact hP.setReturned s _ hs
  | mwr a w =>
    obtain ⟨ha, rfl⟩ := hostWriteMem_cases h
    exact hP.write s _ w ha hs
  | mrd a =>
    obtain ⟨-, rfl⟩ := hostReadMem_cases h
    exact hP.setReturned s _ hs

theorem of_perform (hP : StepInvariant P) {e : Event} (hs : P s) (h : perform e s = .next t) : P t := by
  cases e with
  | host x => exact hP.of_transact hs h
  | reset => cases h; exact hP.reset s hs
  | oddAccess off w => cases h

/-- A step keeps what all its parts keep. -/
theorem of_step (hP : StepInvariant P) (hs : P s) (h : step s = .next t) : P t := by
  unfold step stepEvent at h
  split at h
  · cases h; exact hs
  · exact hP.of_perform (hP.setEvents s _ hs) h

end StepInvariant

/-! ## Registers the work of a RUN leaves -/

@[simp] theorem runDecimator_args (s : State) : (runDecimator s).args = s.args :=
  (onlyAccMem_runDecimator s).fields.1
@[simp] theorem runInterpolator_args (s : State) : (runInterpolator s).args = s.args :=
  (onlyAccMem_runInterpolator s).fields.1
@[simp] theorem runDecimator_memWords (s : State) : (runDecimator s).memWords = s.memWords := by
  rw [onlyAccMem_runDecimator s]; rfl
@[simp] theorem runInterpolator_memWords (s : State) : (runInterpolator s).memWords = s.memWords := by
  rw [onlyAccMem_runInterpolator s]; rfl

/-! ## Words stored inside MEM -/

/-- A canonical memory that lists no address of `n` or above (`State.memoryInv` at `n` = MEM_WORDS). -/
def Memory.Inside (n : Nat) (m : Memory) : Prop := Memory.wf m ∧ ∀ x ∈ m, x.1 < n

theorem memoryInv_iff (s : State) : s.memoryInv ↔ s.mem.Inside s.memWords := Iff.rfl

theorem inside_writeWord {n a : Nat} {s : State} (ha : a < n) (w : Sample) (hs : s.mem.Inside n) :
    (writeWord a w s).mem.Inside n := by
  obtain ⟨hwf, hin⟩ := hs
  refine ⟨wf_writeWord hwf a w, fun x hx => ?_⟩
  obtain rfl | hx := mem_memInsert hx
  · exact ha
  · exact hin x hx

theorem inside_memWrite {n a : Nat} {s : State} (ha : a < n) (v : Int) (hs : s.mem.Inside n) :
    (memWrite a v s).mem.Inside n := inside_writeWord ha (w16 v) hs

theorem inside_forUpTo {n k : Nat} {body : Nat → State → State} {s : State} (hs : s.mem.Inside n)
    (h : ∀ i t, i < k → t.mem.Inside n → (body i t).mem.Inside n) : (forUpTo k body s).mem.Inside n :=
  forUpTo_induct (P := fun _ t => t.mem.Inside n) hs h

theorem inside_storeOutput {n out : Nat} {s : State} (hout : out < n) (k : Nat) (cA xA : Nat → Nat)
    (hs : s.mem.Inside n) : (storeOutput out k cA xA s).mem.Inside n :=
  inside_memWrite hout _ (by rwa [accumulate_mem])

theorem inside_append {n st h b : Nat} {s : State} (hle : st + h + b ≤ n) (pIn : Nat)
    (hs : s.mem.Inside n) : (append st h pIn b s).mem.Inside n :=
  inside_forUpTo hs fun j _ hj => inside_memWrite (by omega) _

theorem inside_shift {n st h : Nat} {s : State} (hle : st + h ≤ n) (b : Nat) (hs : s.mem.Inside n) :
    (shift st h b s).mem.Inside n :=
  inside_forUpTo hs fun j _ hj => inside_memWrite (by omega) _

theorem inside_decimate {n pOut nOut : Nat} {s : State} (d : Descriptor) (hle : pOut + nOut ≤ n)
    (hs : s.mem.Inside n) : (decimate d pOut nOut s).mem.Inside n :=
  inside_forUpTo hs fun i _ hi => inside_storeOutput (by omega) _ _ _

theorem inside_interpolate {n pOut b : Nat} {s : State} {d : Descriptor}
    (hle : pOut + b * d.factor.toNat ≤ n) (hs : s.mem.Inside n) :
    (interpolate d pOut b s).mem.Inside n := by
  refine inside_forUpTo hs fun i t hi ht => inside_forUpTo ht fun p u hp =>
    inside_storeOutput ?_ _ _ _
  have hblock : (i + 1) * d.factor.toNat ≤ b * d.factor.toNat := Nat.mul_le_mul_right _ hi
  rw [Nat.succ_mul] at hblock
  omega

/-- R52: an accepted RUND with a committed descriptor stores inside MEM. -/
theorem inside_runDecimator {s : State} (hr : s.runsD) (hs : s.mem.Inside s.memWords) :
    (runDecimator s).mem.Inside s.memWords := by
  obtain ⟨hacc, ⟨-, htaps, -, -, -, -, -, -, hstate⟩, -⟩ := hr
  obtain ⟨-, -, hblk, -, -, -, hout⟩ := rejectD_eq_none hacc
  have hregion : s.descD.state.toNat + historyD s.descD + blockSize s ≤ s.memWords := by
    unfold historyD; omega
  exact inside_shift (by omega) _ (inside_decimate _ hout (inside_append hregion _ hs))

/-- R52: an accepted RUNI with a committed descriptor stores inside MEM. -/
theorem inside_runInterpolator {s : State} (hr : s.runsI) (hs : s.mem.Inside s.memWords) :
    (runInterpolator s).mem.Inside s.memWords := by
  obtain ⟨hacc, ⟨hfac, htaps, hmod, -, -, -, -, hstate⟩, -⟩ := hr
  obtain ⟨-, hblk, -, -, -, hout⟩ := rejectI_eq_none hacc
  have hsub : 1 ≤ subTaps s.descI :=
    Nat.div_pos (Nat.le_of_dvd htaps (Nat.dvd_of_mod_eq_zero hmod)) hfac
  have hregion : s.descI.state.toNat + historyI s.descI + blockSize s ≤ s.memWords := by
    unfold historyI; unfold subTaps at *; omega
  exact inside_shift (by omega) _ (inside_interpolate hout (inside_append hregion _ hs))

/-! ## The parts of the invariant, each kept by every step -/

theorem rejectD_ne_noCause (s : State) : rejectD s ≠ some .noCause := by
  unfold rejectD
  split_ifs <;> simp

theorem rejectI_ne_noCause (s : State) : rejectI s ≠ some .noCause := by
  unfold rejectI
  split_ifs <;> simp

/-- A property that reads STATUS, the descriptors and MEM_WORDS alone is kept by every step if the ends of
a command, the commits of the initialisations and reset keep it. -/
theorem StepInvariant.of_status_desc {P : State → Prop}
    (congr : ∀ {s t : State}, t.status = s.status → t.descD = s.descD → t.descI = s.descI →
      t.memWords = s.memWords → P s → P t)
    (reset : ∀ s, P s → P (resetUnit s))
    (respond : ∀ r s, r ≠ .contractViolation → P s → P (respond r s))
    (violation : ∀ c s, c ≠ .noCause → P s → P (contractViolation c s))
    (commitD : ∀ d s, validD s.memWords d → P s → P (commitD d s))
    (commitI : ∀ d s, validI s.memWords d → P s → P (commitI d s)) : StepInvariant P where
  setArgs _ _ := congr rfl rfl rfl rfl
  setCmd _ _ := congr rfl rfl rfl rfl
  setEvents _ _ := congr rfl rfl rfl rfl
  setReturned _ _ := congr rfl rfl rfl rfl
  write _ _ _ _ := congr rfl rfl rfl rfl
  reset := reset
  illegal s := violation _ s (by decide)
  command {s _ _} ha hs := by
    have work {u : State} (hu : OnlyAccMem s u) : P u := by
      obtain ⟨-, -, hst, hd, hi, hm, -, -⟩ := hu.fields
      exact congr hst hd hi hm hs
    cases ha with
    | initdCommits hv => exact respond _ _ (by decide) (commitD _ s hv hs)
    | initiCommits hv => exact respond _ _ (by decide) (commitI _ s hv hs)
    | initdFails | initiFails => exact respond _ s (by decide) hs
    | rundRejected hc => exact violation _ s (fun h => rejectD_ne_noCause s (h ▸ hc)) hs
    | runiRejected hc => exact violation _ s (fun h => rejectI_ne_noCause s (h ▸ hc)) hs
    | rundRuns => exact respond _ _ (by decide) (work (onlyAccMem_runDecimator s))
    | runiRuns => exact respond _ _ (by decide) (work (onlyAccMem_runInterpolator s))

theorem stepInvariant_memWordsLegal : StepInvariant fun s => Config.MemWordsLegal s.memWords :=
  .of_status_desc (congr := fun _ _ _ hm h => hm.symm ▸ h) (reset := fun _ h => h)
    (respond := fun _ _ _ h => h) (violation := fun _ _ _ h => h)
    (commitD := fun _ _ _ h => h) (commitI := fun _ _ _ h => h)

/-- R27 for the decimator channel: only a valid INITD and reset change what it reads. -/
theorem stepInvariant_descriptorInvD : StepInvariant State.descriptorInvD :=
  .of_status_desc
    (congr := fun hst hd _ hm h => by rwa [State.descriptorInvD, hst, hd, hm])
    (reset := fun _ _ => .inl ⟨rfl, rfl⟩)
    (respond := fun _ _ _ h => h) (violation := fun _ _ _ h => h)
    (commitD := fun _ _ hv _ => .inr ⟨rfl, hv⟩) (commitI := fun _ _ _ h => h)

/-- R27 for the interpolator channel: only a valid INITI and reset change what it reads. -/
theorem stepInvariant_descriptorInvI : StepInvariant State.descriptorInvI :=
  .of_status_desc
    (congr := fun hst _ hi hm h => by rwa [State.descriptorInvI, hst, hi, hm])
    (reset := fun _ _ => .inl ⟨rfl, rfl⟩)
    (respond := fun _ _ _ h => h) (violation := fun _ _ _ h => h)
    (commitD := fun _ _ _ h => h) (commitI := fun _ _ hv _ => .inr ⟨rfl, hv⟩)

/-- R231: the two ends of a command write RESP, CAUSE and CVS together, so that R24 holds after each. -/
theorem stepInvariant_statusConsistent : StepInvariant fun s => s.status.consistent :=
  .of_status_desc (congr := fun hst _ _ _ h => hst.symm ▸ h)
    (reset := fun _ _ => show Status.reset.consistent by decide)
    (respond := fun _ _ hr _ => ⟨iff_of_true rfl hr, fun h => absurd h hr⟩)
    (violation := fun _ _ hc _ => ⟨iff_of_false hc (not_not.mpr rfl), fun _ => rfl⟩)
    (commitD := fun _ _ _ h => h) (commitI := fun _ _ _ h => h)

/-- R50, R52: MEM stays canonical and inside MEM_WORDS; only host writes and accepted RUNs store. -/
theorem stepInvariant_memoryInv : StepInvariant State.memoryInv where
  setArgs _ _ h := h
  setCmd _ _ h := h
  setEvents _ _ h := h
  setReturned _ _ h := h
  write _ _ w ha h := inside_writeWord ha w h
  reset _ h := h
  illegal _ h := h
  command {s _ _} ha h := by
    cases ha with
    | rundRuns hr =>
      rw [memoryInv_iff, respond_mem, respond_memWords, runDecimator_memWords]
      exact inside_runDecimator hr h
    | runiRuns hr =>
      rw [memoryInv_iff, respond_mem, respond_memWords, runInterpolator_memWords]
      exact inside_runInterpolator hr h
    | _ => exact h

/-! ## The obligations on the invariant -/

/-- Settles O52: the five parts of the invariant are each kept by every step. -/
theorem stepKeepsInvariant : Obligations.StepKeepsInvariant := by
  rintro s t ⟨hwords, hD, hI, hstatus, hmem⟩ hstep
  exact ⟨stepInvariant_memWordsLegal.of_step hwords hstep,
    stepInvariant_descriptorInvD.of_step hD hstep, stepInvariant_descriptorInvI.of_step hI hstep,
    stepInvariant_statusConsistent.of_step hstatus hstep, stepInvariant_memoryInv.of_step hmem hstep⟩

/-- Settles O53: nothing is live at reset, and no word of MEM is listed. -/
theorem resetMeetsInvariant : Obligations.ResetMeetsInvariant :=
  ⟨by decide, .inl ⟨rfl, rfl⟩, .inl ⟨rfl, rfl⟩, by decide, .nil, fun _ h => absurd h List.not_mem_nil⟩

/-- Settles O54, by the two descriptor parts of the invariant. -/
theorem descriptorInvariant : Obligations.DescriptorInvariant :=
  ⟨.inl ⟨rfl, rfl⟩, .inl ⟨rfl, rfl⟩, fun _ _ => stepInvariant_descriptorInvD.of_step,
    fun _ _ => stepInvariant_descriptorInvI.of_step⟩

end Sys2Proof.Machine
end

section
/-! SUPPORT. What a command does not read: a change of state that the work of a RUN does not read commutes
with it, stops included (spec/10_state.md R20, R22; spec/30_encoding.md R86). -/

namespace Sys2Proof.Machine

/-! ## Changes of state that a RUN does not read -/

/-- A change of state that commutes with the body commutes with the loop. -/
theorem forUpTo_comm {f : State → State} (n : Nat) {body : Nat → State → State}
    (h : ∀ i t, body i (f t) = f (body i t)) (s : State) :
    forUpTo n body (f s) = f (forUpTo n body s) :=
  (forUpTo_commute (P := fun _ => True) f trivial (fun _ _ _ _ => trivial) fun i t _ _ => h i t).2

/-- A change of state beside ACC, MEM and the three operands of a RUN, which the micro-operations and the
ends of a command neither read nor undo. It may change descriptors and
live bits. -/
structure UnreadByRun (f : State → State) : Prop where
  mem : ∀ s, (f s).mem = s.mem
  acc : ∀ s, (f s).acc = s.acc
  memWords : ∀ s, (f s).memWords = s.memWords
  inputBase : ∀ s, inputBase (f s) = inputBase s
  outputBase : ∀ s, outputBase (f s) = outputBase s
  blockSize : ∀ s, blockSize (f s) = blockSize s
  setAcc : ∀ s v, (f s).setAcc v = f (s.setAcc v)
  setMem : ∀ s m, (f s).setMem m = f (s.setMem m)
  respond : ∀ r s, respond r (f s) = f (respond r s)
  violation : ∀ c s, contractViolation c (f s) = f (contractViolation c s)

namespace UnreadByRun

variable {f : State → State}

theorem memRead (hf : UnreadByRun f) (a : Nat) (s : State) : memRead a (f s) = memRead a s :=
  memRead_congr (readWord_congr (hf.mem s) a)

theorem memWrite (hf : UnreadByRun f) (a : Nat) (v : Int) (s : State) :
    memWrite a v (f s) = f (memWrite a v s) := by
  simp only [Machine.memWrite, writeWord, hf.mem, hf.setMem]

theorem mac (hf : UnreadByRun f) (c x : Int) (s : State) : mac c x (f s) = f (mac c x s) := by
  simp only [Machine.mac, hf.acc, hf.setAcc]

theorem accumulate (hf : UnreadByRun f) (n : Nat) (cA xA : Nat → Nat) (s : State) :
    accumulate n cA xA (f s) = f (accumulate n cA xA s) := by
  unfold Machine.accumulate
  rw [macclr, hf.setAcc]
  exact forUpTo_comm n (fun k t => by simp only [hf.memRead, hf.mac]) _

theorem storeOutput (hf : UnreadByRun f) (out n : Nat) (cA xA : Nat → Nat) (s : State) :
    storeOutput out n cA xA (f s) = f (storeOutput out n cA xA s) := by
  simp only [Machine.storeOutput, rndsat, hf.accumulate, hf.acc, hf.memWrite]

theorem append (hf : UnreadByRun f) (st h pIn b : Nat) (s : State) :
    append st h pIn b (f s) = f (append st h pIn b s) :=
  forUpTo_comm b (fun j t => by rw [hf.memRead, hf.memWrite]) s

theorem shift (hf : UnreadByRun f) (st h b : Nat) (s : State) :
    shift st h b (f s) = f (shift st h b s) :=
  forUpTo_comm h (fun j t => by rw [hf.memRead, hf.memWrite]) s

theorem decimate (hf : UnreadByRun f) (d : Descriptor) (pOut nOut : Nat) (s : State) :
    decimate d pOut nOut (f s) = f (decimate d pOut nOut s) :=
  forUpTo_comm nOut (fun _ t => hf.storeOutput _ _ _ _ t) s

theorem interpolate (hf : UnreadByRun f) (d : Descriptor) (pOut b : Nat) (s : State) :
    interpolate d pOut b (f s) = f (interpolate d pOut b s) :=
  forUpTo_comm b (fun _ => forUpTo_comm _ fun _ => hf.storeOutput _ _ _ _) s

/-- RUND gives the same outcome, with the change kept, where the change leaves D and LIVE_D. -/
theorem execRund (hf : UnreadByRun f) (hd : ∀ s, (f s).descD = s.descD)
    (hl : ∀ s, (f s).status.liveD = s.status.liveD) (s : State) :
    execRund (f s) = mapNext f (execRund s) := by
  have houtputs : outputsD (f s) = outputsD s := by
    rw [outputsD, hf.blockSize, hd]; rfl
  have hreject : rejectD (f s) = rejectD s := by
    unfold rejectD
    rw [houtputs, hf.memWords, hf.inputBase, hf.outputBase, hf.blockSize, hd, hl]
  have hregions : regionsD (f s) = regionsD s := by
    simp only [regionsD, houtputs, hf.inputBase, hf.outputBase, hf.blockSize, hd]
  have hwork : runDecimator (f s) = f (runDecimator s) := by
    simp only [runDecimator, houtputs, hf.inputBase, hf.outputBase, hf.blockSize, hd, hf.append,
      hf.decimate, hf.shift]
  unfold Machine.execRund
  rw [hreject, hregions, hwork, hd, hf.memWords]
  cases rejectD s with
  | some c => exact congrArg _ (hf.violation c s)
  | none =>
    simp only
    split_ifs
    · exact congrArg _ (hf.respond _ _)
    all_goals rfl

/-- RUNI gives the same outcome, with the change kept, where the change leaves I and LIVE_I. -/
theorem execRuni (hf : UnreadByRun f) (hi : ∀ s, (f s).descI = s.descI)
    (hl : ∀ s, (f s).status.liveI = s.status.liveI) (s : State) :
    execRuni (f s) = mapNext f (execRuni s) := by
  have houtputs : outputsI (f s) = outputsI s := by
    rw [outputsI, hf.blockSize, hi]; rfl
  have hreject : rejectI (f s) = rejectI s := by
    unfold rejectI
    rw [houtputs, hf.memWords, hf.inputBase, hf.outputBase, hf.blockSize, hi, hl]
  have hregions : regionsI (f s) = regionsI s := by
    simp only [regionsI, houtputs, hf.inputBase, hf.outputBase, hf.blockSize, hi]
  have hwork : runInterpolator (f s) = f (runInterpolator s) := by
    simp only [runInterpolator, hf.inputBase, hf.outputBase, hf.blockSize, hi, hf.append,
      hf.interpolate, hf.shift]
  unfold Machine.execRuni
  rw [hreject, hregions, hwork, hi, hf.memWords]
  cases rejectI s with
  | some c => exact congrArg _ (hf.violation c s)
  | none =>
    simp only
    split_ifs
    · exact congrArg _ (hf.respond _ _)
    all_goals rfl

end UnreadByRun

/-! ## A3 and A4 -/

def withA3A4 (v3 v4 : Word) (s : State) : State := { s with args := { s.args with a3 := v3, a4 := v4 } }

/-- R86: the operands of a RUN are A0 to A2. -/
theorem unreadByRun_withA3A4 (v3 v4 : Word) : UnreadByRun (withA3A4 v3 v4) := by
  constructor <;> intros <;> rfl

/-- R22: no command writes an argument register. -/
theorem args_of_answers {i : Instr} {s t : State} (h : Answers s i t) : t.args = s.args := by
  cases h with
  | rundRuns => exact runDecimator_args s
  | runiRuns => exact runInterpolator_args s
  | _ => rfl

/-- Settles O36: each answer keeps the argument registers, and a RUN does not read A3 and A4. -/
theorem argumentRegistersAreOnlyRead : Obligations.ArgumentRegistersAreOnlyRead := by
  refine ⟨fun i s t h => args_of_answers (answers_of_exec h), ?_⟩
  rintro i s v3 v4 (rfl | rfl)
  · exact (unreadByRun_withA3A4 v3 v4).execRund (fun _ => rfl) (fun _ => rfl) s
  · exact (unreadByRun_withA3A4 v3 v4).execRuni (fun _ => rfl) (fun _ => rfl) s

/-! ## The registers of the other channel -/

def withChannelD (d : Descriptor) (live : Bool) (s : State) : State :=
  { s with descD := d, status := { s.status with liveD := live } }

def withChannelI (d : Descriptor) (live : Bool) (s : State) : State :=
  { s with descI := d, status := { s.status with liveI := live } }

theorem unreadByRun_withChannelD (d : Descriptor) (live : Bool) : UnreadByRun (withChannelD d live) := by
  constructor <;> intros <;> rfl

theorem unreadByRun_withChannelI (d : Descriptor) (live : Bool) : UnreadByRun (withChannelI d live) := by
  constructor <;> intros <;> rfl

/-- A valid INITD commits its operands (R155). -/
theorem execInitd_of_valid {s : State} (h : validD s.memWords (initdOperands s)) :
    execInitd s = .next (respond .success (commitD (initdOperands s) s)) := if_pos h

/-- An invalid INITD commits nothing (R154). -/
theorem execInitd_of_invalid {s : State} (h : ¬ validD s.memWords (initdOperands s)) :
    execInitd s = .next (respond .invalidParameter s) := if_neg h

/-- A valid INITI commits its operands (R185). -/
theorem execIniti_of_valid {s : State} (h : validI s.memWords (initiOperands s)) :
    execIniti s = .next (respond .success (commitI (initiOperands s) s)) := if_pos h

/-- An invalid INITI commits nothing (R184). -/
theorem execIniti_of_invalid {s : State} (h : ¬ validI s.memWords (initiOperands s)) :
    execIniti s = .next (respond .invalidParameter s) := if_neg h

/-- INITD checks A0 to A4 and MEM_WORDS and writes D and STATUS, but not LIVE_I. -/
theorem execInitd_withChannelI (d : Descriptor) (live : Bool) (s : State) :
    execInitd (withChannelI d live s) = mapNext (withChannelI d live) (execInitd s) := by
  by_cases hv : validD s.memWords (initdOperands s)
  · rw [execInitd_of_valid hv, execInitd_of_valid (s := withChannelI d live s) hv]; rfl
  · rw [execInitd_of_invalid hv, execInitd_of_invalid (s := withChannelI d live s) hv]; rfl

/-- INITI checks A0 to A4 and MEM_WORDS and writes I and STATUS, but not LIVE_D. -/
theorem execIniti_withChannelD (d : Descriptor) (live : Bool) (s : State) :
    execIniti (withChannelD d live s) = mapNext (withChannelD d live) (execIniti s) := by
  by_cases hv : validI s.memWords (initiOperands s)
  · rw [execIniti_of_valid hv, execIniti_of_valid (s := withChannelD d live s) hv]; rfl
  · rw [execIniti_of_invalid hv, execIniti_of_invalid (s := withChannelD d live s) hv]; rfl

/-- Settles O58: each command commutes with a change of the other channel's registers. -/
theorem channelsAreIndependent : Obligations.ChannelsAreIndependent := by
  refine fun s d l i => ⟨?_, ?_⟩
  · rintro (rfl | rfl)
    · exact execInitd_withChannelI d l s
    · exact (unreadByRun_withChannelI d l).execRund (fun _ => rfl) (fun _ => rfl) s
  · rintro (rfl | rfl)
    · exact execIniti_withChannelD d l s
    · exact (unreadByRun_withChannelD d l).execRuni (fun _ => rfl) (fun _ => rfl) s

end Sys2Proof.Machine
end

section
/-! SUPPORT. The STATUS word field by field (spec/10_state.md R24), and what reads as what after reset
(R36). -/

namespace Sys2Proof.Machine

/-! ## The STATUS word -/

theorem responseCode_lt (r : Response) : responseCode r < 4 := by cases r <;> decide

theorem causeCode_lt (c : Cause) : causeCode c < 16 := by cases c <;> decide

/-- The word as the sum of its fields: they do not overlap, so none is cut off. -/
theorem statusWord_toNat (st : Status) :
    (statusWord st).toNat = responseCode st.resp + 16 * causeCode st.cause + 256 * st.liveD.toNat +
      512 * st.liveI.toNat + 1024 * st.cvs.toNat := by
  have hr := responseCode_lt st.resp
  have hc := causeCode_lt st.cause
  have hd := Bool.toNat_le st.liveD
  have hi := Bool.toNat_le st.liveI
  have hv := Bool.toNat_le st.cvs
  rw [statusWord, BitVec.toNat_ofNat]
  exact Nat.mod_eq_of_lt (by omega)

/-- A bit field of STATUS holds the number `n` where the word's sum, divided down to it, leaves `n`. -/
theorem statusWord_extract {st : Status} {start len n : Nat}
    (h : (statusWord st).toNat / 2 ^ start % 2 ^ len = n % 2 ^ len) :
    (statusWord st).extractLsb' start len = BitVec.ofNat len n := by
  apply BitVec.eq_of_toNat_eq
  rw [BitVec.extractLsb'_toNat, Nat.shiftRight_eq_div_pow, h, BitVec.toNat_ofNat]

theorem statusWord_bit {st : Status} {i : Nat} {b : Bool}
    (h : (statusWord st).toNat / 2 ^ i % 2 = b.toNat) : (statusWord st).getLsbD i = b := by
  rw [BitVec.getLsbD, Nat.testBit_eq_decide_div_mod_eq, h]
  cases b <;> rfl

/-- Settles O15: the fields read off the sum, and the numbers of R230 and R235 off the codes. -/
theorem statusWordFields : Obligations.StatusWordFields := by
  intro st
  have hw := statusWord_toNat st
  have hr := responseCode_lt st.resp
  have hc := causeCode_lt st.cause
  have hd := Bool.toNat_le st.liveD
  have hi := Bool.toNat_le st.liveI
  have hv := Bool.toNat_le st.cvs
  have hresp : (statusWord st).extractLsb' 0 2 = BitVec.ofNat 2 (responseCode st.resp) :=
    statusWord_extract (by omega)
  have hcause : (statusWord st).extractLsb' 4 4 = BitVec.ofNat 4 (causeCode st.cause) :=
    statusWord_extract (by omega)
  refine ⟨?_, statusWord_extract (by omega), ?_, statusWord_bit (by omega), statusWord_bit (by omega),
    statusWord_bit (by omega), statusWord_extract (by omega)⟩
  · rw [hresp]
    cases st.resp <;> rfl
  · rw [hcause]
    cases st.cause <;> rfl

/-! ## Reset -/

theorem regValue_reset (r : Reg) : regValue State.reset r = 0 := by cases r <;> rfl

theorem readRegister_reset (off : Word) : readRegister off State.reset = 0 := by
  unfold readRegister
  split
  · exact regValue_reset _
  · rfl

/-- Settles O16: the reset values themselves, and an empty list of known words. -/
theorem resetRegistersAreZero : Obligations.ResetRegistersAreZero :=
  ⟨rfl, rfl, rfl, rfl, rfl, rfl, readRegister_reset, fun _ => rfl⟩

end Sys2Proof.Machine
end

section
/-! SUPPORT. What an accepted RUN leaves in every word of MEM, and from which words (spec/20_memory.md R60,
R61; spec/42_decimator.md R163; spec/43_interpolator.md R193). -/

namespace Sys2Proof.Machine

/-! ## Events in order -/

/-- A machine with no pending event is idle (R252). -/
theorem step_of_no_events {s : State} (h : s.events = []) : step s = .next s := by
  rw [step, stepEvent, h]

/-- A step performs the first pending event, the rest still pending (R64). -/
theorem step_of_events {s : State} {e : Event} {rest : List Event} (h : s.events = e :: rest) :
    step s = perform e (s.setEvents rest) := by
  rw [step, stepEvent, h]

/-- Settles O6. -/
theorem stepTakesEventsInOrder : Obligations.StepTakesEventsInOrder :=
  fun _ => ⟨step_of_no_events, fun _ _ => step_of_events⟩

/-! ## Accepted runs that stop -/

theorem execRund_of_notLegal {s : State} (h : rejectD s = none) (hv : ¬ validD s.memWords s.descD) :
    execRund s = .fault .descriptorNotLegal := by
  unfold execRund
  rw [h]
  exact if_pos hv

theorem execRuni_of_notLegal {s : State} (h : rejectI s = none) (hv : ¬ validI s.memWords s.descI) :
    execRuni s = .fault .descriptorNotLegal := by
  unfold execRuni
  rw [h]
  exact if_pos hv

theorem execRund_of_overlap {s : State} (h : rejectD s = none) (hv : validD s.memWords s.descD)
    (ho : ¬ (regionsD s).pairwiseDisjoint) : execRund s = .refused .regionsOverlap := by
  unfold execRund
  rw [h]
  simp only
  rw [if_neg (not_not.mpr hv), if_pos ho]

theorem execRuni_of_overlap {s : State} (h : rejectI s = none) (hv : validI s.memWords s.descI)
    (ho : ¬ (regionsI s).pairwiseDisjoint) : execRuni s = .refused .regionsOverlap := by
  unfold execRuni
  rw [h]
  simp only
  rw [if_neg (not_not.mpr hv), if_pos ho]

/-- Settles O28: acceptance and R27 hold, so the check of R61 decides. -/
theorem overlappingRegionsAreRefused : Obligations.OverlappingRegionsAreRefused :=
  fun _ => ⟨execRund_of_overlap, execRuni_of_overlap⟩

/-! ## Addresses of a region -/

/-- The word address `a` lies in the region (R60). -/
def Region.Has (r : Region) (a : Nat) : Prop := r.base ≤ a ∧ a < r.base + r.len

/-- R61: disjoint regions have no address in common. -/
theorem Region.disjoint_iff (r q : Region) : r.disjoint q ↔ ∀ a, r.Has a → ¬ q.Has a := by
  simp only [Region.disjoint, Region.Has]
  constructor
  · intro h a
    omega
  · intro h
    have hr := h r.base
    have hq := h q.base
    omega

/-! ## The memory after a RUN -/

theorem dot_congr {n : Nat} {c c' x x' : Nat → Int} (hc : ∀ k, k < n → c k = c' k)
    (hx : ∀ k, k < n → x k = x' k) : dot n c x = dot n c' x' := by
  unfold dot
  congr 2
  refine Finset.sum_congr rfl fun k hk => ?_
  have hk := Finset.mem_range.mp hk
  rw [hc k hk, hx k hk]

/-- R130: after APPEND the state words hold the window, where STATE and IN are disjoint. -/
theorem readWord_append_window {st h pIn b : Nat} (hd : Region.disjoint ⟨st, h + b⟩ ⟨pIn, b⟩)
    (s : State) {j : Nat} (hj : j < h + b) :
    readWord (st + j) (append st h pIn b s) = windowWord st h pIn s j := by
  simp only [Region.disjoint] at hd
  rw [readWord_append (by omega), windowWord]
  by_cases hjh : j < h
  · rw [if_neg (by omega), if_pos hjh]
  · rw [if_pos (by omega), if_neg hjh]
    congr 1
    omega

/-- APPEND changes no word outside STATE. -/
theorem readWord_append_of_outside {st h pIn b a : Nat} (hd : Region.disjoint ⟨st, h + b⟩ ⟨pIn, b⟩)
    (s : State) (ha : ¬ Region.Has ⟨st, h + b⟩ a) :
    readWord a (append st h pIn b s) = readWord a s := by
  simp only [Region.disjoint] at hd
  simp only [Region.Has] at ha
  rw [readWord_append (by omega), if_neg (by omega)]

/-- R136: whatever computes the outputs between APPEND and SHIFT, if it stores `out` in OUT and no other
word, the three leave the words that `wordAfterRun` says. -/
theorem readWord_shift_outputs_append {st h pIn b pOut nOut : Nat} {out : Nat → Int}
    {outputs : State → State} {s : State} (hin : Region.disjoint ⟨st, h + b⟩ ⟨pIn, b⟩)
    (hout : Region.disjoint ⟨st, h + b⟩ ⟨pOut, nOut⟩)
    (houtputs : ∀ a, readWord a (outputs (append st h pIn b s)) =
      if pOut ≤ a ∧ a < pOut + nOut then w16 (out (a - pOut))
      else readWord a (append st h pIn b s)) (a : Nat) :
    readWord a (shift st h b (outputs (append st h pIn b s))) =
      wordAfterRun st h b pOut nOut (windowWord st h pIn s) out s a := by
  have hwindow {j : Nat} (hj : j < h + b) :
      readWord (st + j) (outputs (append st h pIn b s)) = windowWord st h pIn s j := by
    simp only [Region.disjoint] at hout
    rw [houtputs, if_neg (by omega), readWord_append_window hin s hj]
  rw [readWord_shift, wordAfterRun]
  split_ifs with hhist happ hstored
  · rw [← hwindow (by omega)]
    congr 1
    omega
  · rw [← hwindow (by omega)]
    congr 1
    omega
  · rw [houtputs, if_pos hstored]
  · rw [houtputs, if_neg hstored]
    exact readWord_append_of_outside hin s (by simp only [Region.Has]; omega)

/-- Group `i` of the whole groups of `m` in `b` ends inside `b`. -/
theorem mul_add_le_of_lt_div {i b m : Nat} (hi : i < b / m) : i * m + m ≤ b := by
  have h : (i + 1) * m ≤ b := (Nat.mul_le_mul_right m hi).trans (Nat.div_mul_le_self b m)
  rwa [Nat.succ_mul] at h

/-- R160: the window word that tap `k` of output `i` reads is in the window. -/
theorem windowIndexD_lt {s : State} (hM : 1 ≤ s.descD.factor.toNat) {i k : Nat} (hi : i < outputsD s)
    (hk : k < s.descD.taps.toNat) :
    i * s.descD.factor.toNat + s.descD.taps.toNat - 1 - k < historyD s.descD + blockSize s := by
  have := mul_add_le_of_lt_div hi
  unfold historyD
  omega

/-- R190: the window word that tap `j` of a phase reads at input `n` is in the window. -/
theorem windowIndexI_lt {d : Descriptor} {b n j : Nat} (hn : n < b) (hj : j < subTaps d) :
    n + subTaps d - 1 - j < historyI d + b := by
  unfold historyI
  omega

/-- R190: tap `j` of phase `p` is one of the coefficients. -/
theorem phaseTap_lt {d : Descriptor} {p j : Nat} (hp : p < d.factor.toNat) (hj : j < subTaps d) :
    p + j * d.factor.toNat < d.taps.toNat := by
  have := mul_add_le_of_lt_div hj
  omega

/-- R192: an output index belongs to an input of the block. -/
theorem outputInput_lt {s : State} {i : Nat} (hi : i < outputsI s) :
    i / s.descI.factor.toNat < blockSize s :=
  Nat.div_lt_of_lt_mul (by rwa [Nat.mul_comm])

/-- R163: the memory after an accepted RUND. -/
theorem readWord_runDecimator {s : State} (hr : s.runsD) (a : Nat) :
    readWord a (runDecimator s) = wordAfterRund s a := by
  obtain ⟨-, ⟨hM, -⟩, hcs, -, hco, hin, hout, -⟩ := hr
  refine readWord_shift_outputs_append hin hout (fun a => ?_) a
  have haddr (i : Nat) {k : Nat} (hk : k < s.descD.taps.toNat) :
      s.descD.state.toNat + i * s.descD.factor.toNat + s.descD.taps.toNat - 1 - k =
        s.descD.state.toNat + (i * s.descD.factor.toNat + s.descD.taps.toNat - 1 - k) := by omega
  simp only [regionsD, Region.disjoint] at hco hout
  rw [readWord_decimate (fun k hk => by omega) (fun i k hi hk => by
    have := windowIndexD_lt hM hi hk
    rw [haddr i hk]
    omega)]
  refine ite_congr rfl (fun ha => congrArg w16 (dot_congr (fun k hk => ?_) fun k hk => ?_)) fun _ => rfl
  · refine memRead_congr (readWord_append_of_outside hin s fun hs => ?_)
    exact (Region.disjoint_iff _ _).mp hcs _ ⟨Nat.le_add_right _ k, Nat.add_lt_add_left hk _⟩ hs
  · have hlt := windowIndexD_lt hM (i := a - outputBase s) (by omega) hk
    rw [haddr _ hk, memRead, readWord_append_window hin s hlt]
    rfl

/-- R193: the memory after an accepted RUNI. -/
theorem readWord_runInterpolator {s : State} (hr : s.runsI) (a : Nat) :
    readWord a (runInterpolator s) = wordAfterRuni s a := by
  obtain ⟨-, ⟨hL, -⟩, hcs, -, hco, hin, hout, -⟩ := hr
  refine readWord_shift_outputs_append hin hout (fun a => ?_) a
  have haddr (n : Nat) {j : Nat} (hj : j < subTaps s.descI) :
      s.descI.state.toNat + n + subTaps s.descI - 1 - j =
        s.descI.state.toNat + (n + subTaps s.descI - 1 - j) := by omega
  simp only [regionsI, Region.disjoint, outputsI] at hco hout
  rw [readWord_interpolate hL
    (fun p j hp hj => by
      have := phaseTap_lt hp hj
      omega)
    (fun n j hn hj => by
      have := windowIndexI_lt hn hj
      rw [haddr n hj]
      omega)]
  refine ite_congr rfl (fun ha => congrArg w16 (dot_congr (fun j hj => ?_) fun j hj => ?_)) fun _ => rfl
  · rw [Nat.add_assoc]
    refine memRead_congr (readWord_append_of_outside hin s fun hs => ?_)
    have htap := phaseTap_lt (Nat.mod_lt (a - outputBase s) hL) hj
    exact (Region.disjoint_iff _ _).mp hcs _ ⟨Nat.le_add_right _ _, Nat.add_lt_add_left htap _⟩ hs
  · have hn : a - outputBase s < outputsI s := Nat.sub_lt_left_of_lt_add ha.1 ha.2
    rw [haddr _ hj, memRead, readWord_append_window hin s (windowIndexI_lt (outputInput_lt hn) hj)]
    rfl

/-! ## The words a RUN reads -/

/-- The new words of STATE and OUT come from the window and the outputs alone. -/
theorem wordAfterRun_congr {st h b pOut nOut : Nat} {w w' : Nat → Sample} {out out' : Nat → Int}
    {s s' : State} (hw : ∀ j, j < h + b → w' j = w j) (hout : ∀ i, i < nOut → out' i = out i)
    {a : Nat} (ha : Region.Has ⟨st, h + b⟩ a ∨ Region.Has ⟨pOut, nOut⟩ a) :
    wordAfterRun st h b pOut nOut w' out' s' a = wordAfterRun st h b pOut nOut w out s a := by
  simp only [Region.Has] at ha
  unfold wordAfterRun
  split_ifs
  · exact hw _ (by omega)
  · exact hw _ (by omega)
  · rw [hout _ (by omega)]
  · omega

/-- The window comes from the history words and IN. -/
theorem windowWord_congr {st h pIn b : Nat} {s s' : State}
    (hin : ∀ a, Region.Has ⟨pIn, b⟩ a → readWord a s' = readWord a s)
    (hhist : ∀ a, Region.Has ⟨st, h⟩ a → readWord a s' = readWord a s) {j : Nat} (hj : j < h + b) :
    windowWord st h pIn s' j = windowWord st h pIn s j := by
  simp only [Region.Has] at hin hhist
  unfold windowWord
  split_ifs
  · exact hhist _ (by omega)
  · exact hin _ (by omega)

/-- R60: the words an accepted RUND stores come from COEF, IN and the history. -/
theorem wordAfterRund_setMem {s : State} {m : Memory} (hr : s.runsD)
    (hcoef : ∀ a, (regionsD s).coef.Has a → readWord a (s.setMem m) = readWord a s)
    (hin : ∀ a, (regionsD s).input.Has a → readWord a (s.setMem m) = readWord a s)
    (hhist : ∀ a, Region.Has ⟨s.descD.state.toNat, historyD s.descD⟩ a →
      readWord a (s.setMem m) = readWord a s) {a : Nat}
    (ha : (regionsD s).state.Has a ∨ (regionsD s).output.Has a) :
    wordAfterRund (s.setMem m) a = wordAfterRund s a := by
  obtain ⟨-, ⟨hM, -⟩, -⟩ := hr
  have hwindow {j : Nat} (hj : j < historyD s.descD + blockSize s) :
      windowD (s.setMem m) j = windowD s j := windowWord_congr hin hhist hj
  refine wordAfterRun_congr (fun j hj => hwindow hj)
    (fun i hi => dot_congr (fun k hk => memRead_congr (hcoef _ ?_)) fun k hk => congrArg s16 ?_) ha
  · exact ⟨Nat.le_add_right _ k, Nat.add_lt_add_left hk _⟩
  · exact hwindow (windowIndexD_lt hM hi hk)

/-- R60: the words an accepted RUNI stores come from COEF, IN and the history. -/
theorem wordAfterRuni_setMem {s : State} {m : Memory} (hr : s.runsI)
    (hcoef : ∀ a, (regionsI s).coef.Has a → readWord a (s.setMem m) = readWord a s)
    (hin : ∀ a, (regionsI s).input.Has a → readWord a (s.setMem m) = readWord a s)
    (hhist : ∀ a, Region.Has ⟨s.descI.state.toNat, historyI s.descI⟩ a →
      readWord a (s.setMem m) = readWord a s) {a : Nat}
    (ha : (regionsI s).state.Has a ∨ (regionsI s).output.Has a) :
    wordAfterRuni (s.setMem m) a = wordAfterRuni s a := by
  obtain ⟨-, ⟨hL, -⟩, -⟩ := hr
  have hwindow {j : Nat} (hj : j < historyI s.descI + blockSize s) :
      windowI (s.setMem m) j = windowI s j := windowWord_congr hin hhist hj
  refine wordAfterRun_congr (fun j hj => hwindow hj)
    (fun i hi => dot_congr (fun k hk => memRead_congr (hcoef _ ?_)) fun k hk => congrArg s16 ?_) ha
  · exact ⟨Nat.le_add_right _ _, Nat.add_lt_add_left (phaseTap_lt (Nat.mod_lt i hL) hk) _⟩
  · exact hwindow (windowIndexI_lt (outputInput_lt hi) hk)

/-- The next state of an accepted RUND. -/
theorem eq_of_exec_rund {s t : State} (hr : s.runsD) (h : exec .rund s = .next t) :
    t = respond .success (runDecimator s) :=
  (Host.Outcome.next.inj ((execRund_of_runsD hr).symm.trans h)).symm

/-- The next state of an accepted RUNI. -/
theorem eq_of_exec_runi {s t : State} (hr : s.runsI) (h : exec .runi s = .next t) :
    t = respond .success (runInterpolator s) :=
  (Host.Outcome.next.inj ((execRuni_of_runsI hr).symm.trans h)).symm

/-- Settles O56: both commands leave the words of `wordAfterRund`, which come from the words that agree. -/
theorem rundReadsOnlyItsRegions : Obligations.RundReadsOnlyItsRegions := by
  intro s t u m hr hagree ht hu a ha
  have hr' : (s.setMem m).runsD := hr
  rw [eq_of_exec_rund hr ht, eq_of_exec_rund hr' hu, readWord_respond, readWord_respond,
    readWord_runDecimator hr, readWord_runDecimator hr']
  exact wordAfterRund_setMem hr (fun b hb => hagree b (.inl hb)) (fun b hb => hagree b (.inr (.inl hb)))
    (fun b hb => hagree b (.inr (.inr hb))) ha

/-- Settles O57: both commands leave the words of `wordAfterRuni`, which come from the words that agree. -/
theorem runiReadsOnlyItsRegions : Obligations.RuniReadsOnlyItsRegions := by
  intro s t u m hr hagree ht hu a ha
  have hr' : (s.setMem m).runsI := hr
  rw [eq_of_exec_runi hr ht, eq_of_exec_runi hr' hu, readWord_respond, readWord_respond,
    readWord_runInterpolator hr, readWord_runInterpolator hr']
  exact wordAfterRuni_setMem hr (fun b hb => hagree b (.inl hb)) (fun b hb => hagree b (.inr (.inl hb)))
    (fun b hb => hagree b (.inr (.inr hb))) ha

end Sys2Proof.Machine
end

section
/-! SUPPORT. The null word: no command reads or writes MEM[0] (spec/20_memory.md R51). -/

namespace Sys2Proof.Machine

/-! ## Work that leaves the null word alone -/

/-- Work that keeps a canonical memory canonical and commutes, data for data, with a write of the word at
address 0. The memory must be canonical for the two orders of two writes to list the same words alike. -/
structure LeavesNull (work : State → State) : Prop where
  wf : ∀ {s}, Memory.wf s.mem → Memory.wf (work s).mem
  comm : ∀ (w : Sample) {s}, Memory.wf s.mem → work (writeWord 0 w s) = writeWord 0 w (work s)

namespace LeavesNull

theorem comp {f g : State → State} (hg : LeavesNull g) (hf : LeavesNull f) :
    LeavesNull fun s => g (f s) where
  wf hs := hg.wf (hf.wf hs)
  comm w s hs := by rw [hf.comm w hs, hg.comm w (hf.wf hs)]

theorem forUpTo {n : Nat} {body : Nat → State → State} (h : ∀ i, i < n → LeavesNull (body i)) :
    LeavesNull (forUpTo n body) where
  wf hs := forUpTo_induct (P := fun _ t => Memory.wf t.mem) hs fun i _ hi => (h i hi).wf
  comm w _ hs := (forUpTo_commute (P := fun t => Memory.wf t.mem) (writeWord 0 w) hs
    (fun i _ hi => (h i hi).wf) fun i _ hi => (h i hi).comm w).2

end LeavesNull

theorem writeWord_comm {a b : Nat} (hab : a ≠ b) (v w : Sample) {s : State} (hs : Memory.wf s.mem) :
    writeWord a v (writeWord b w s) = writeWord b w (writeWord a v s) := by
  refine congrArg s.setMem (memory_ext (wf_writeWord (wf_writeWord hs b w) a v)
    (wf_writeWord (wf_writeWord hs a v) b w) fun c => ?_)
  simp only [writeWord, State.setMem_mem, memLookup_memInsert]
  by_cases hca : c = a
  · rw [if_pos hca, if_neg (by omega), if_pos hca]
  · rw [if_neg hca, if_neg hca]

theorem memRead_writeWord_null {a : Nat} (ha : a ≠ 0) (w : Sample) (s : State) :
    memRead a (writeWord 0 w s) = memRead a s :=
  memRead_congr (by rw [readWord_writeWord, if_neg ha])

/-- A store off address 0 of a value that does not depend on the null word. -/
theorem leavesNull_memWrite {a : Nat} (ha : a ≠ 0) {v : State → Int}
    (hv : ∀ w s, v (writeWord 0 w s) = v s) : LeavesNull fun s => memWrite a (v s) s where
  wf hs := wf_writeWord hs a _
  comm w s hs := by rw [hv, memWrite, memWrite, writeWord_comm ha _ _ hs]

theorem leavesNull_mac {a b : Nat} (ha : a ≠ 0) (hb : b ≠ 0) :
    LeavesNull fun s => mac (memRead a s) (memRead b s) s where
  wf hs := hs
  comm w s _ := by rw [memRead_writeWord_null ha, memRead_writeWord_null hb]; rfl

theorem leavesNull_accumulate {n : Nat} {cA xA : Nat → Nat} (hc : ∀ k, k < n → cA k ≠ 0)
    (hx : ∀ k, k < n → xA k ≠ 0) : LeavesNull (accumulate n cA xA) :=
  .comp (f := macclr) (.forUpTo fun k hk => leavesNull_mac (hc k hk) (hx k hk)) ⟨id, fun _ _ _ => rfl⟩

theorem leavesNull_storeOutput {out n : Nat} {cA xA : Nat → Nat} (hout : out ≠ 0)
    (hc : ∀ k, k < n → cA k ≠ 0) (hx : ∀ k, k < n → xA k ≠ 0) :
    LeavesNull (storeOutput out n cA xA) :=
  .comp (g := fun t => memWrite out (rndsat t) t) (leavesNull_memWrite hout fun _ _ => rfl)
    (leavesNull_accumulate hc hx)

theorem leavesNull_copy {a b : Nat} (ha : a ≠ 0) (hb : b ≠ 0) :
    LeavesNull fun s => memWrite a (memRead b s) s :=
  leavesNull_memWrite ha fun w s => memRead_writeWord_null hb w s

theorem leavesNull_append {st pIn : Nat} (hst : st ≠ 0) (hin : pIn ≠ 0) (h b : Nat) :
    LeavesNull (append st h pIn b) :=
  .forUpTo fun j _ => leavesNull_copy (by omega) (by omega)

theorem leavesNull_shift {st : Nat} (hst : st ≠ 0) (h b : Nat) : LeavesNull (shift st h b) :=
  .forUpTo fun j _ => leavesNull_copy (by omega) (by omega)

theorem leavesNull_decimate {d : Descriptor} {pOut : Nat} (hcoef : d.coef.toNat ≠ 0)
    (hst : d.state.toNat ≠ 0) (hout : pOut ≠ 0) (nOut : Nat) : LeavesNull (decimate d pOut nOut) :=
  .forUpTo fun i _ => leavesNull_storeOutput (by omega) (fun k _ => by omega) fun k hk => by omega

theorem leavesNull_interpolate {d : Descriptor} {pOut : Nat} (hcoef : d.coef.toNat ≠ 0)
    (hst : d.state.toNat ≠ 0) (hout : pOut ≠ 0) (b : Nat) : LeavesNull (interpolate d pOut b) :=
  .forUpTo fun n _ => .forUpTo fun p _ =>
    leavesNull_storeOutput (by omega) (fun j _ => by omega) fun j hj => by omega

/-! ## The commands -/

/-- R51: the bases of an accepted RUND are not null. -/
theorem runDecimator_writeWord_null {s : State} (hr : s.runsD) (hs : Memory.wf s.mem) (w : Sample) :
    runDecimator (writeWord 0 w s) = writeWord 0 w (runDecimator s) := by
  obtain ⟨hacc, ⟨-, -, -, hcoef, hst, -⟩, -⟩ := hr
  obtain ⟨-, -, -, hin, hout, -⟩ := rejectD_eq_none hacc
  exact ((leavesNull_shift hst _ _).comp ((leavesNull_decimate hcoef hst hout _).comp
    (leavesNull_append hst hin _ _))).comm w hs

/-- R51: the bases of an accepted RUNI are not null. -/
theorem runInterpolator_writeWord_null {s : State} (hr : s.runsI) (hs : Memory.wf s.mem) (w : Sample) :
    runInterpolator (writeWord 0 w s) = writeWord 0 w (runInterpolator s) := by
  obtain ⟨hacc, ⟨-, -, -, hcoef, hst, -⟩, -⟩ := hr
  obtain ⟨-, -, hin, hout, -⟩ := rejectI_eq_none hacc
  exact ((leavesNull_shift hst _ _).comp ((leavesNull_interpolate hcoef hst hout _).comp
    (leavesNull_append hst hin _ _))).comm w hs

theorem execInitd_writeWord_null (w : Sample) (s : State) :
    execInitd (writeWord 0 w s) = mapNext (writeWord 0 w) (execInitd s) := by
  by_cases hv : validD s.memWords (initdOperands s)
  · rw [execInitd_of_valid hv, execInitd_of_valid (s := writeWord 0 w s) hv]; rfl
  · rw [execInitd_of_invalid hv, execInitd_of_invalid (s := writeWord 0 w s) hv]; rfl

theorem execIniti_writeWord_null (w : Sample) (s : State) :
    execIniti (writeWord 0 w s) = mapNext (writeWord 0 w) (execIniti s) := by
  by_cases hv : validI s.memWords (initiOperands s)
  · rw [execIniti_of_valid hv, execIniti_of_valid (s := writeWord 0 w s) hv]; rfl
  · rw [execIniti_of_invalid hv, execIniti_of_invalid (s := writeWord 0 w s) hv]; rfl

theorem execRund_writeWord_null {s : State} (hs : Memory.wf s.mem) (w : Sample) :
    execRund (writeWord 0 w s) = mapNext (writeWord 0 w) (execRund s) := by
  cases hc : rejectD s with
  | some c => rw [execRund_of_reject hc, execRund_of_reject (s := writeWord 0 w s) hc]; rfl
  | none =>
    by_cases hv : validD s.memWords s.descD
    · by_cases hd : (regionsD s).pairwiseDisjoint
      · have hr : s.runsD := ⟨hc, hv, hd⟩
        rw [execRund_of_runsD hr, execRund_of_runsD (s := writeWord 0 w s) hr,
          runDecimator_writeWord_null hr hs]
        rfl
      · rw [execRund_of_overlap hc hv hd, execRund_of_overlap (s := writeWord 0 w s) hc hv hd]; rfl
    · rw [execRund_of_notLegal hc hv, execRund_of_notLegal (s := writeWord 0 w s) hc hv]; rfl

theorem execRuni_writeWord_null {s : State} (hs : Memory.wf s.mem) (w : Sample) :
    execRuni (writeWord 0 w s) = mapNext (writeWord 0 w) (execRuni s) := by
  cases hc : rejectI s with
  | some c => rw [execRuni_of_reject hc, execRuni_of_reject (s := writeWord 0 w s) hc]; rfl
  | none =>
    by_cases hv : validI s.memWords s.descI
    · by_cases hd : (regionsI s).pairwiseDisjoint
      · have hr : s.runsI := ⟨hc, hv, hd⟩
        rw [execRuni_of_runsI hr, execRuni_of_runsI (s := writeWord 0 w s) hr,
          runInterpolator_writeWord_null hr hs]
        rfl
      · rw [execRuni_of_overlap hc hv hd, execRuni_of_overlap (s := writeWord 0 w s) hc hv hd]; rfl
    · rw [execRuni_of_notLegal hc hv, execRuni_of_notLegal (s := writeWord 0 w s) hc hv]; rfl

/-- Settles O55: each command commutes with a write of the null word. -/
theorem nullWordIsNeverTouched : Obligations.NullWordIsNeverTouched := by
  intro i s w hs
  cases i with
  | initd => exact execInitd_writeWord_null w s
  | rund => exact execRund_writeWord_null hs w
  | initi => exact execIniti_writeWord_null w s
  | runi => exact execRuni_writeWord_null hs w

end Sys2Proof.Machine
end

section
/-! SUPPORT. Several units on one memory: what a unit's next event reads and writes, and that events which
share no written word commute (spec/20_memory.md R69; spec/60_exceptions.md R250). -/

namespace Sys2Proof.Machine

/-! ## Races -/

/-- The word address `a` lies in one of the regions. -/
def Covers (rs : List Region) (a : Nat) : Prop := ∃ r ∈ rs, r.Has a

theorem meets_iff (ws rs : List Region) : meets ws rs = true ↔ ∃ a, Covers ws a ∧ Covers rs a := by
  simp only [meets, List.any_eq_true, Bool.not_eq_true', decide_eq_false_iff_not, Region.disjoint_iff,
    not_forall, not_not]
  constructor
  · rintro ⟨w, hw, r, hr, a, hwa, hra⟩
    exact ⟨a, ⟨w, hw, hwa⟩, r, hr, hra⟩
  · rintro ⟨a, ⟨w, hw, hwa⟩, r, hr, hra⟩
    exact ⟨w, hw, r, hr, a, hwa, hra⟩

theorem races_comm (f g : Footprint) : races f g = races g f := Bool.or_comm _ _

theorem races_iff (f g : Footprint) :
    races f g = true ↔ (∃ a, Covers f.writes a ∧ Covers (g.reads ++ g.writes) a) ∨
      ∃ a, Covers g.writes a ∧ Covers (f.reads ++ f.writes) a := by
  simp only [races, Bool.or_eq_true, meets_iff]

theorem races_eq_false_iff (f g : Footprint) :
    races f g = false ↔ (∀ a, Covers f.writes a → ¬ Covers (g.reads ++ g.writes) a) ∧
      ∀ a, Covers g.writes a → ¬ Covers (f.reads ++ f.writes) a := by
  simp only [← Bool.not_eq_true, races_iff, not_or, not_exists, not_and]

theorem covers_append (rs qs : List Region) (a : Nat) :
    Covers (rs ++ qs) a ↔ Covers rs a ∨ Covers qs a := by
  simp only [Covers, List.mem_append, or_and_right, exists_or]

/-! ## Two units at once -/

theorem stepTogether_of_race {sys : System} {j k : Nat} {s t : State} (hs : unitAt sys j = some s)
    (ht : unitAt sys k = some t) (h : j = k ∨ races (nextFootprint s) (nextFootprint t) = true) :
    stepTogether j k sys = .refused .dataRace := by
  unfold stepTogether
  rw [hs, ht]
  exact if_pos h

/-- Settles O59: a common word makes the two footprints race, and a race has no order. -/
theorem racingUnitsAreRefused : Obligations.RacingUnitsAreRefused := by
  intro sys j k s t hs ht h
  have hrace : j = k ∨ races (nextFootprint s) (nextFootprint t) = true := by
    obtain h | ⟨a, w, hw, r, hr, hwl, hwu, hrl, hru⟩ := h
    · exact .inl h
    · exact .inr ((races_iff _ _).mpr (.inl ⟨a, ⟨w, hw, hwl, hwu⟩, r, hr, hrl, hru⟩))
  refine ⟨stepTogether_of_race hs ht hrace, stepTogether_of_race ht hs ?_⟩
  rwa [races_comm, eq_comm (a := k)]

/-! ## Events and their footprints -/

/-- What the host can see of a unit beside MEM: its registers but ACC, and what its reads returned. -/
def State.visible (s : State) : Args × Word × Status × Descriptor × Descriptor × List HostData :=
  (s.args, s.cmd, s.status, s.descD, s.descI, s.returned)

/-- From `s` the work answers `t` and touches no more than its footprint: it changes only the words it
writes, and on another memory that agrees on the words it reads it answers alike and leaves the same in
the words it writes. -/
structure Touches (f : Footprint) (work : State → Host.Outcome State Fault Refusal) (s t : State) :
    Prop where
  frame : ∀ a, ¬ Covers f.writes a → readWord a t = readWord a s
  reads : ∀ m, (∀ a, Covers f.reads a → readWord a (s.setMem m) = readWord a s) →
    ∃ t', work (s.setMem m) = .next t' ∧ t'.visible = t.visible ∧
      (∀ a, Covers f.writes a → readWord a t' = readWord a t) ∧
      ∀ a, ¬ Covers f.writes a → readWord a t' = readWord a (s.setMem m)

theorem not_covers_nil (a : Nat) : ¬ Covers [] a := by simp [Covers]

/-- Work that neither reads nor writes MEM. -/
theorem touches_nothing {work : State → Host.Outcome State Fault Refusal} {s t : State}
    (hmem : t.mem = s.mem) (hwork : ∀ m, work (s.setMem m) = .next (t.setMem m)) :
    Touches ⟨[], []⟩ work s t where
  frame a _ := readWord_congr hmem a
  reads m _ := ⟨t.setMem m, hwork m, rfl, fun a h => absurd h (not_covers_nil a), fun _ _ => rfl⟩

theorem covers_runFootprint_reads (r : RunRegions) (a : Nat) :
    Covers (runFootprint r).reads a ↔ r.coef.Has a ∨ r.state.Has a ∨ r.input.Has a := by
  simp [Covers, runFootprint]

theorem covers_runFootprint_writes (r : RunRegions) (a : Nat) :
    Covers (runFootprint r).writes a ↔ r.state.Has a ∨ r.output.Has a := by
  simp [Covers, runFootprint]

/-- A word outside STATE and OUT stays. -/
theorem wordAfterRun_of_outside {st h b pOut nOut : Nat} (w : Nat → Sample) (out : Nat → Int) (s : State)
    {a : Nat} (hs : ¬ Region.Has ⟨st, h + b⟩ a) (hout : ¬ Region.Has ⟨pOut, nOut⟩ a) :
    wordAfterRun st h b pOut nOut w out s a = readWord a s := by
  simp only [Region.Has] at hs hout
  rw [wordAfterRun, if_neg (by omega), if_neg (by omega), if_neg hout]

/-- The history words are words of STATE. -/
theorem history_has_state {st h a : Nat} (b : Nat) (ha : Region.Has ⟨st, h⟩ a) :
    Region.Has ⟨st, h + b⟩ a := by
  simp only [Region.Has] at *
  omega

theorem readWord_runDecimator_of_outside {s : State} (hr : s.runsD) {a : Nat}
    (ha : ¬ Covers (runFootprint (regionsD s)).writes a) :
    readWord a (runDecimator s) = readWord a s := by
  rw [covers_runFootprint_writes, not_or] at ha
  rw [readWord_runDecimator hr]
  exact wordAfterRun_of_outside _ _ s ha.1 ha.2

theorem readWord_runInterpolator_of_outside {s : State} (hr : s.runsI) {a : Nat}
    (ha : ¬ Covers (runFootprint (regionsI s)).writes a) :
    readWord a (runInterpolator s) = readWord a s := by
  rw [covers_runFootprint_writes, not_or] at ha
  rw [readWord_runInterpolator hr]
  exact wordAfterRun_of_outside _ _ s ha.1 ha.2

theorem touches_rund {s : State} (hr : s.runsD) :
    Touches (runFootprint (regionsD s)) (exec .rund) s (respond .success (runDecimator s)) where
  frame a ha := readWord_runDecimator_of_outside hr ha
  reads m hm := by
    have hr' : (s.setMem m).runsD := hr
    refine ⟨_, execRund_of_runsD hr', ?_, fun a ha => ?_, fun a ha => ?_⟩
    · rw [onlyAccMem_runDecimator s, onlyAccMem_runDecimator (s.setMem m)]
      rfl
    · simp only [covers_runFootprint_reads] at hm
      rw [readWord_respond, readWord_respond, readWord_runDecimator hr, readWord_runDecimator hr']
      exact wordAfterRund_setMem hr (fun b hb => hm b (.inl hb)) (fun b hb => hm b (.inr (.inr hb)))
        (fun b hb => hm b (.inr (.inl (history_has_state _ hb))))
        ((covers_runFootprint_writes _ a).mp ha)
    · exact readWord_runDecimator_of_outside hr' ha

theorem touches_runi {s : State} (hr : s.runsI) :
    Touches (runFootprint (regionsI s)) (exec .runi) s (respond .success (runInterpolator s)) where
  frame a ha := readWord_runInterpolator_of_outside hr ha
  reads m hm := by
    have hr' : (s.setMem m).runsI := hr
    refine ⟨_, execRuni_of_runsI hr', ?_, fun a ha => ?_, fun a ha => ?_⟩
    · rw [onlyAccMem_runInterpolator s, onlyAccMem_runInterpolator (s.setMem m)]
      rfl
    · simp only [covers_runFootprint_reads] at hm
      rw [readWord_respond, readWord_respond, readWord_runInterpolator hr, readWord_runInterpolator hr']
      exact wordAfterRuni_setMem hr (fun b hb => hm b (.inl hb)) (fun b hb => hm b (.inr (.inr hb)))
        (fun b hb => hm b (.inr (.inl (history_has_state _ hb))))
        ((covers_runFootprint_writes _ a).mp ha)
    · exact readWord_runInterpolator_of_outside hr' ha

/-- A command touches no more than R60's table says. -/
theorem touches_exec {i : Instr} {s t : State} (h : exec i s = .next t) :
    Touches (commandFootprint i s) (exec i) s t := by
  cases answers_of_exec h with
  | initdCommits hv => exact touches_nothing rfl fun m => execInitd_of_valid (s := s.setMem m) hv
  | initdFails hv => exact touches_nothing rfl fun m => execInitd_of_invalid (s := s.setMem m) hv
  | initiCommits hv => exact touches_nothing rfl fun m => execIniti_of_valid (s := s.setMem m) hv
  | initiFails hv => exact touches_nothing rfl fun m => execIniti_of_invalid (s := s.setMem m) hv
  | rundRejected hc =>
    simp only [commandFootprint, hc, reduceCtorEq, if_false]
    exact touches_nothing rfl fun m => execRund_of_reject (s := s.setMem m) hc
  | runiRejected hc =>
    simp only [commandFootprint, hc, reduceCtorEq, if_false]
    exact touches_nothing rfl fun m => execRuni_of_reject (s := s.setMem m) hc
  | rundRuns hr =>
    simp only [commandFootprint, hr.1, if_true]
    exact touches_rund hr
  | runiRuns hr =>
    simp only [commandFootprint, hr.1, if_true]
    exact touches_runi hr

/-! ## One event -/

/-- Work that is other work on another state with the same memory touches the same words. -/
theorem Touches.of_eq {f : Footprint} {work work' : State → Host.Outcome State Fault Refusal}
    {s s' t : State} (h : Touches f work' s' t) (hmem : s'.mem = s.mem)
    (hwork : ∀ m, work (s.setMem m) = work' (s'.setMem m)) : Touches f work s t where
  frame a ha := (h.frame a ha).trans (readWord_congr hmem a)
  reads m hm := by
    rw [hwork]
    exact h.reads m fun a ha => (hm a ha).trans (readWord_congr hmem.symm a)

theorem covers_word (n a : Nat) : Covers [⟨n, 1⟩] a ↔ a = n := by
  simp only [Covers, List.mem_singleton, exists_eq_left, Region.Has]
  omega

theorem touches_hostWriteMem {a : Word} {w : Sample} {s t : State} (h : hostWriteMem a w s = .next t) :
    Touches ⟨[], [⟨a.toNat, 1⟩]⟩ (hostWriteMem a w) s t := by
  obtain ⟨ha, rfl⟩ := hostWriteMem_cases h
  refine ⟨fun b hb => ?_, fun m _ => ⟨_, if_pos ha, rfl, fun b hb => ?_, fun b hb => ?_⟩⟩
  all_goals rw [covers_word] at hb
  · rw [readWord_writeWord, if_neg hb]
  · rw [readWord_writeWord, readWord_writeWord, if_pos hb, if_pos hb]
  · rw [readWord_writeWord, if_neg hb]

theorem touches_hostReadMem {a : Word} {s t : State} (h : hostReadMem a s = .next t) :
    Touches ⟨[⟨a.toNat, 1⟩], []⟩ (hostReadMem a) s t := by
  obtain ⟨ha, rfl⟩ := hostReadMem_cases h
  refine ⟨fun b _ => rfl, fun m hm => ⟨_, if_pos ha, ?_, fun b hb => absurd hb (not_covers_nil b),
    fun b _ => rfl⟩⟩
  rw [hm _ ((covers_word _ _).mpr rfl)]
  rfl

/-- R211: a write to a register other than CMD does not touch MEM. -/
theorem hostWriteReg_setMem {off d : Word} {s t : State} (hr : regAt off ≠ some .cmd)
    (h : hostWriteReg off d s = .next t) :
    t.mem = s.mem ∧ ∀ m, hostWriteReg off d (s.setMem m) = .next (t.setMem m) := by
  unfold hostWriteReg at *
  cases hreg : regAt off with
  | none => rw [hreg] at h; cases h; exact ⟨rfl, fun _ => rfl⟩
  | some r =>
    rw [hreg] at h
    cases r
    case cmd => exact absurd hreg hr
    all_goals cases h; exact ⟨rfl, fun _ => rfl⟩

theorem hostWriteReg_cmd {off : Word} (hr : regAt off = some .cmd) (d : Word) (s : State) :
    hostWriteReg off d s = writeCommand d s := by
  unfold hostWriteReg
  rw [hr]

theorem writeCommand_ok {d : Word} {i : Instr} (hi : decode d = .ok i) (s : State) :
    writeCommand d s = exec i (s.setCmd d) := by
  unfold writeCommand
  rw [hi]

theorem writeCommand_illegal {d : Word} (hd : decode d = .error .illegalCommandWord) (s : State) :
    writeCommand d s = .next (contractViolation .illegalCommand (s.setCmd d)) := by
  unfold writeCommand
  rw [hd]

theorem commandFootprint_setEvents_setCmd (i : Instr) (es : List Event) (d : Word) (s : State) :
    commandFootprint i ((s.setEvents es).setCmd d) = commandFootprint i s := by
  cases i <;> rfl

theorem touches_hostWriteReg {off d : Word} {rest : List Event} {s t : State}
    (he : s.events = .host (.hwr off d) :: rest) (h : hostWriteReg off d (s.setEvents rest) = .next t) :
    Touches (nextFootprint s) (hostWriteReg off d) (s.setEvents rest) t := by
  rw [nextFootprint, he]
  by_cases hr : regAt off = some .cmd
  · rw [hostWriteReg_cmd hr] at h
    obtain ⟨i, hi, hexec⟩ | ⟨hd, rfl⟩ := writeCommand_cases h
    · simp only [hr, hi]
      rw [← commandFootprint_setEvents_setCmd i rest d]
      exact (touches_exec hexec).of_eq rfl fun m => by rw [hostWriteReg_cmd hr, writeCommand_ok hi]; rfl
    · simp only [hr, hd]
      exact touches_nothing rfl fun m => by rw [hostWriteReg_cmd hr, writeCommand_illegal hd]; rfl
  · obtain ⟨hmem, hwork⟩ := hostWriteReg_setMem hr h
    simp only
    split
    next hcmd _ => exact absurd hcmd hr
    next => exact touches_nothing hmem hwork

theorem touches_perform {e : Event} {rest : List Event} {s t : State} (he : s.events = e :: rest)
    (h : perform e (s.setEvents rest) = .next t) :
    Touches (nextFootprint s) (perform e) (s.setEvents rest) t := by
  cases e with
  | host x =>
    cases x with
    | hwr off d => exact touches_hostWriteReg he h
    | hrd off =>
      rw [nextFootprint, he]
      cases h
      exact touches_nothing rfl fun _ => rfl
    | mwr a w => rw [nextFootprint, he]; exact touches_hostWriteMem h
    | mrd a => rw [nextFootprint, he]; exact touches_hostReadMem h
  | reset =>
    rw [nextFootprint, he]
    cases h
    exact touches_nothing rfl fun _ => rfl
  | oddAccess off w => cases h

/-- A step touches no more than the footprint of the next event. -/
theorem touches_step {s t : State} (h : step s = .next t) : Touches (nextFootprint s) step s t := by
  cases he : s.events with
  | nil =>
    rw [step_of_no_events he] at h
    cases h
    rw [nextFootprint, he]
    exact touches_nothing rfl fun m => step_of_no_events he
  | cons e rest =>
    rw [step_of_events he] at h
    exact (touches_perform he h).of_eq rfl fun m => step_of_events he

/-! ## Two events on one memory -/

/-- R69: after an event that it does not race with, an event is answered as it is without: the host sees
the same, its words are the same, and every other word is as the first event left it. -/
theorem step_after_step {s t s₁ t₁ : State} (hmem : s.mem = t.mem)
    (hrace : races (nextFootprint s) (nextFootprint t) = false) (hs : step s = .next s₁)
    (ht : step t = .next t₁) :
    ∃ t₂, step (t.setMem s₁.mem) = .next t₂ ∧ t₂.visible = t₁.visible ∧
      (∀ a, Covers (nextFootprint t).writes a → readWord a t₂ = readWord a t₁) ∧
      ∀ a, ¬ Covers (nextFootprint t).writes a → readWord a t₂ = readWord a s₁ := by
  refine (touches_step ht).reads s₁.mem fun a ha => ?_
  have hunwritten : ¬ Covers (nextFootprint s).writes a := fun hw =>
    ((races_eq_false_iff _ _).mp hrace).1 a hw ((covers_append _ _ a).mpr (.inl ha))
  exact ((touches_step hs).frame a hunwritten).trans (readWord_congr hmem a)

/-- R69: both orders of two events that do not race leave the same words. -/
theorem readWord_either_order {s t s₁ t₁ s₂ t₂ : State} (hmem : s.mem = t.mem)
    (hrace : races (nextFootprint s) (nextFootprint t) = false) (hs₁ : step s = .next s₁)
    (ht₂ : step (t.setMem s₁.mem) = .next t₂) (ht₁ : step t = .next t₁)
    (hs₂ : step (s.setMem t₁.mem) = .next s₂) :
    t₂.visible = t₁.visible ∧ s₂.visible = s₁.visible ∧ ∀ a, readWord a t₂ = readWord a s₂ := by
  obtain ⟨t', ht', htv, htw, htf⟩ := step_after_step hmem hrace hs₁ ht₁
  obtain ⟨s', hs', hsv, hsw, hsf⟩ := step_after_step hmem.symm (races_comm _ _ ▸ hrace) ht₁ hs₁
  cases ht'.symm.trans ht₂
  cases hs'.symm.trans hs₂
  refine ⟨htv, hsv, fun a => ?_⟩
  by_cases hwt : Covers (nextFootprint t).writes a
  · have hws : ¬ Covers (nextFootprint s).writes a := fun hw =>
      ((races_eq_false_iff _ _).mp hrace).1 a hw ((covers_append _ _ a).mpr (.inr hwt))
    rw [htw a hwt, hsf a hws]
  · by_cases hws : Covers (nextFootprint s).writes a
    · rw [htf a hwt, hsw a hws]
    · rw [htf a hwt, hsf a hws, (touches_step hs₁).frame a hws, (touches_step ht₁).frame a hwt]
      exact readWord_congr hmem a

/-! ## Two units of a system -/

/-- The system after unit k has stepped to `t`. -/
def System.after (sys : System) (k : Nat) (t : State) : System := ⟨sys.units.set k (t.setMem []), t.mem⟩

theorem stepUnit_of_step {sys : System} {k : Nat} {s t : State} (hs : unitAt sys k = some s)
    (h : step s = .next t) : stepUnit k sys = .next (sys.after k t) := by
  unfold stepUnit
  rw [hs]
  simp only
  rw [h]
  rfl

theorem stepUnit_cases {sys v : System} {k : Nat} {s : State} (hs : unitAt sys k = some s)
    (h : stepUnit k sys = .next v) : ∃ t, step s = .next t ∧ v = sys.after k t := by
  unfold stepUnit at h
  rw [hs] at h
  simp only at h
  split at h
  next t ht => exact ⟨t, ht, by cases h; rfl⟩
  all_goals cases h

theorem unitAt_mem {sys : System} {k : Nat} {s : State} (hs : unitAt sys k = some s) : s.mem = sys.mem := by
  obtain ⟨u, -, rfl⟩ := Option.map_eq_some_iff.mp hs
  rfl

/-- Another unit sees the memory a step has left and is otherwise as it was. -/
theorem unitAt_after {sys : System} {j k : Nat} {t : State} (hjk : j ≠ k) (ht : unitAt sys k = some t)
    (s : State) : unitAt (sys.after j s) k = some (t.setMem s.mem) := by
  obtain ⟨u, hu, rfl⟩ := Option.map_eq_some_iff.mp ht
  rw [unitAt, System.after, List.getElem?_set_ne hjk, hu]
  rfl

theorem stepTogether_of_steps {sys : System} {j k : Nat} {s t s₁ t₂ : State} (hs : unitAt sys j = some s)
    (ht : unitAt sys k = some t) (hjk : j ≠ k)
    (hrace : races (nextFootprint s) (nextFootprint t) = false) (h₁ : step s = .next s₁)
    (h₂ : step (t.setMem s₁.mem) = .next t₂) :
    stepTogether j k sys = .next ((sys.after j s₁).after k t₂) := by
  unfold stepTogether
  rw [hs, ht]
  simp only
  rw [if_neg (by simp [hjk, hrace]), stepUnit_of_step hs h₁]
  exact stepUnit_of_step (unitAt_after hjk ht s₁) h₂

theorem stepTogether_cases {sys u : System} {j k : Nat} (h : stepTogether j k sys = .next u) :
    ∃ s t s₁ t₂, unitAt sys j = some s ∧ unitAt sys k = some t ∧
      races (nextFootprint s) (nextFootprint t) = false ∧ step s = .next s₁ ∧
      step (t.setMem s₁.mem) = .next t₂ ∧ j ≠ k ∧ u = (sys.after j s₁).after k t₂ := by
  unfold stepTogether at h
  split at h
  next s t hs ht =>
    split_ifs at h with hrace
    rw [not_or, Bool.not_eq_true] at hrace
    obtain ⟨hjk, hrace⟩ := hrace
    split at h
    next v hv =>
      obtain ⟨s₁, h₁, rfl⟩ := stepUnit_cases hs hv
      obtain ⟨t₂, h₂, rfl⟩ := stepUnit_cases (unitAt_after hjk ht s₁) h
      exact ⟨s, t, s₁, t₂, hs, ht, hrace, h₁, h₂, hjk, rfl⟩
    all_goals cases h
  all_goals cases h

theorem map_visible_after_after (sys : System) (j k : Nat) (s t : State) :
    ((sys.after j s).after k t).units.map State.visible =
      ((sys.units.map State.visible).set j s.visible).set k t.visible := by
  simp only [System.after, List.map_set]
  rfl

/-- Footprints with no common word where one writes do not race. -/
theorem races_eq_false_of_forall {f g : Footprint}
    (hf : ∀ a, ∀ w ∈ f.writes, ∀ r ∈ g.reads ++ g.writes,
      ¬ (w.base ≤ a ∧ a < w.base + w.len ∧ r.base ≤ a ∧ a < r.base + r.len))
    (hg : ∀ a, ∀ w ∈ g.writes, ∀ r ∈ f.reads ++ f.writes,
      ¬ (w.base ≤ a ∧ a < w.base + w.len ∧ r.base ≤ a ∧ a < r.base + r.len)) :
    races f g = false :=
  (races_eq_false_iff f g).mpr
    ⟨fun a ⟨w, hw, hwl, hwu⟩ ⟨r, hr, hrl, hru⟩ => hf a w hw r hr ⟨hwl, hwu, hrl, hru⟩,
      fun a ⟨w, hw, hwl, hwu⟩ ⟨r, hr, hrl, hru⟩ => hg a w hw r hr ⟨hwl, hwu, hrl, hru⟩⟩

/-- R69: units that do not race and each answer alone are answered together. -/
theorem stepTogether_of_no_race {sys u v : System} {j k : Nat} {s t : State} (hjk : j ≠ k)
    (hs : unitAt sys j = some s) (ht : unitAt sys k = some t)
    (hrace : races (nextFootprint s) (nextFootprint t) = false) (hu : stepUnit j sys = .next u)
    (hv : stepUnit k sys = .next v) : ∃ x, stepTogether j k sys = .next x := by
  obtain ⟨s₁, hs₁, -⟩ := stepUnit_cases hs hu
  obtain ⟨t₁, ht₁, -⟩ := stepUnit_cases ht hv
  have hmem : s.mem = t.mem := (unitAt_mem hs).trans (unitAt_mem ht).symm
  obtain ⟨t₂, ht₂, -⟩ := step_after_step hmem hrace hs₁ ht₁
  exact ⟨_, stepTogether_of_steps hs ht hjk hrace hs₁ ht₂⟩

/-- Settles O60: an event reads and writes only its footprint, so two that share no written word are
answered in either order, and each leaves its own words and registers whichever comes first. -/
theorem independentUnitsCommute : Obligations.IndependentUnitsCommute := by
  refine ⟨fun sys u v j k s t hjk hs ht hst hts hu hv => ?_, fun sys u v j k hu hv => ?_⟩
  · have hrace := races_eq_false_of_forall hst hts
    obtain ⟨x, hx⟩ := stepTogether_of_no_race hjk hs ht hrace hu hv
    obtain ⟨y, hy⟩ := stepTogether_of_no_race hjk.symm ht hs (races_comm _ _ ▸ hrace) hv hu
    exact ⟨x, y, hx, hy⟩
  · obtain ⟨s, t, s₁, t₂, hs, ht, hrace, hs₁, ht₂, hjk, rfl⟩ := stepTogether_cases hu
    obtain ⟨t', s', t₁, s₂, ht', hs', -, ht₁, hs₂, -, rfl⟩ := stepTogether_cases hv
    cases ht'.symm.trans ht
    cases hs'.symm.trans hs
    have hmem : s.mem = t.mem := (unitAt_mem hs).trans (unitAt_mem ht).symm
    obtain ⟨hvt, hvs, hwords⟩ := readWord_either_order hmem hrace hs₁ ht₂ ht₁ hs₂
    have hvisible : ((sys.after j s₁).after k t₂).units.map State.visible =
        ((sys.after k t₁).after j s₂).units.map State.visible := by
      rw [map_visible_after_after, map_visible_after_after, hvt, hvs, List.set_comm _ _ hjk]
    refine ⟨hwords, fun x => ?_⟩
    have hx := congrArg (·[x]?) hvisible
    simp only [List.getElem?_map] at hx
    exact hx

end Sys2Proof.Machine
end

section
/-! SUPPORT. Command words: the decoder against the encoder, fields against words, and the illegal words
(spec/30_encoding.md R82, R84, R88). -/

namespace Sys2Proof

/-! ## Decoding and encoding -/

@[simp] theorem encode_initd : encode .initd = 0x00000001#32 := by decide
@[simp] theorem encode_rund : encode .rund = 0x00000002#32 := by decide
@[simp] theorem encode_initi : encode .initi = 0x00000011#32 := by decide
@[simp] theorem encode_runi : encode .runi = 0x00000012#32 := by decide

theorem decode_encode (i : Instr) : decode (encode i) = .ok i := by cases i <;> decide

theorem encode_of_decode {w : Word} {i : Instr} (h : decode w = .ok i) : encode i = w := by
  unfold decode at h
  split_ifs at h with h1 h2 h3 h4
  · cases h; exact encode_initd.trans h1.symm
  · cases h; exact encode_rund.trans h2.symm
  · cases h; exact encode_initi.trans h3.symm
  · cases h; exact encode_runi.trans h4.symm

/-- R84: a word selects a command by exact equality with that command's word. -/
theorem decode_eq_ok_iff {w : Word} {i : Instr} : decode w = .ok i ↔ w = encode i :=
  ⟨fun h => (encode_of_decode h).symm, fun h => h ▸ decode_encode i⟩

/-- Settles O1: R84's four words are what the encoder makes of the table's fields. -/
theorem tableWordsDecode : Obligations.TableWordsDecode :=
  ⟨decode_encode .initd, by decide, decode_encode .rund, by decide, decode_encode .initi, by decide,
    decode_encode .runi, by decide⟩

/-- Settles O2. -/
theorem decodeSelectsByExactEquality : Obligations.DecodeSelectsByExactEquality := by
  refine ⟨fun w => ?_, fun i _ => decode_encode i, fun _ _ => encode_of_decode⟩
  rw [← encode_initd, ← encode_rund, ← encode_initi, ← encode_runi]
  exact ⟨decode_eq_ok_iff, decode_eq_ok_iff, decode_eq_ok_iff, decode_eq_ok_iff⟩

/-! ## Fields and words -/

theorem wordOfFields_toNat (f : CmdFields) :
    (wordOfFields f).toNat = 32 * f.zero.toNat + 16 * f.ch.toNat + f.fn.toNat := by
  have hch := f.ch.isLt
  have hfn := f.fn.isLt
  simp only [wordOfFields, BitVec.toNat_cast, BitVec.toNat_append]
  rw [← Nat.shiftLeft_add_eq_or_of_lt hch, ← Nat.shiftLeft_add_eq_or_of_lt hfn, Nat.shiftLeft_eq,
    Nat.shiftLeft_eq]
  omega

theorem fieldsOfWord_zero_toNat (w : Word) : (fieldsOfWord w).zero.toNat = w.toNat / 32 := by
  have hw := w.isLt
  simp only [fieldsOfWord, BitVec.extractLsb'_toNat, Nat.shiftRight_eq_div_pow]
  omega

theorem fieldsOfWord_ch_toNat (w : Word) : (fieldsOfWord w).ch.toNat = w.toNat / 16 % 2 := by
  simp only [fieldsOfWord, BitVec.extractLsb'_toNat, Nat.shiftRight_eq_div_pow]

theorem fieldsOfWord_fn_toNat (w : Word) : (fieldsOfWord w).fn.toNat = w.toNat % 16 := by
  simp only [fieldsOfWord, BitVec.extractLsb'_toNat, Nat.shiftRight_zero]

@[simp] theorem wordOfFields_fieldsOfWord (w : Word) : wordOfFields (fieldsOfWord w) = w := by
  apply BitVec.eq_of_toNat_eq
  rw [wordOfFields_toNat, fieldsOfWord_zero_toNat, fieldsOfWord_ch_toNat, fieldsOfWord_fn_toNat]
  omega

theorem cmdFields_ext {f g : CmdFields} (hz : f.zero.toNat = g.zero.toNat)
    (hc : f.ch.toNat = g.ch.toNat) (hn : f.fn.toNat = g.fn.toNat) : f = g := by
  cases f
  cases g
  rw [CmdFields.mk.injEq]
  exact ⟨BitVec.eq_of_toNat_eq hz, BitVec.eq_of_toNat_eq hc, BitVec.eq_of_toNat_eq hn⟩

@[simp] theorem fieldsOfWord_wordOfFields (f : CmdFields) : fieldsOfWord (wordOfFields f) = f := by
  have hch := f.ch.isLt
  have hfn := f.fn.isLt
  apply cmdFields_ext
  · rw [fieldsOfWord_zero_toNat, wordOfFields_toNat]; omega
  · rw [fieldsOfWord_ch_toNat, wordOfFields_toNat]; omega
  · rw [fieldsOfWord_fn_toNat, wordOfFields_toNat]; omega

/-- R82: the fields are legal where ZERO is 0 and FN initialises or runs. -/
theorem CmdFields.wf_iff (f : CmdFields) : f.wf = true ↔ f.zero = 0 ∧ (f.fn = 1 ∨ f.fn = 2) := by
  simp only [CmdFields.wf, Bool.and_eq_true, Bool.or_eq_true, beq_iff_eq]

theorem wf_fieldsOfInstr (i : Instr) : (fieldsOfInstr i).wf = true := by cases i <;> decide

/-- Legal fields are a row of R84's table: CH picks the channel, FN what it does. -/
theorem exists_fieldsOfInstr_of_wf {f : CmdFields} (h : f.wf = true) : ∃ i, f = fieldsOfInstr i := by
  obtain ⟨zero, ch, fn⟩ := f
  obtain ⟨rfl, rfl | rfl⟩ := (CmdFields.wf_iff _).mp h
  · obtain rfl | rfl := BitVec.eq_zero_or_eq_one ch
    · exact ⟨.initd, rfl⟩
    · exact ⟨.initi, rfl⟩
  · obtain rfl | rfl := BitVec.eq_zero_or_eq_one ch
    · exact ⟨.rund, rfl⟩
    · exact ⟨.runi, rfl⟩

/-- R82, R88: a word whose fields are legal is a word that decodes. -/
theorem wf_fieldsOfWord_iff (w : Word) : (fieldsOfWord w).wf = true ↔ ∃ i, decode w = .ok i := by
  constructor
  · intro h
    obtain ⟨i, hi⟩ := exists_fieldsOfInstr_of_wf h
    refine ⟨i, decode_eq_ok_iff.mpr ?_⟩
    rw [encode, ← hi, wordOfFields_fieldsOfWord]
  · rintro ⟨i, hi⟩
    rw [← encode_of_decode hi, encode, fieldsOfWord_wordOfFields]
    exact wf_fieldsOfInstr i

/-- Settles O3. -/
theorem fieldsAndWordsAgree : Obligations.FieldsAndWordsAgree :=
  ⟨wordOfFields_fieldsOfWord, fieldsOfWord_wordOfFields, wf_fieldsOfWord_iff⟩

/-! ## Illegal command words -/

/-- R84: the words that decode are the four of the table. -/
theorem exists_decode_ok_iff (w : Word) : (∃ i, decode w = .ok i) ↔
    w = 0x00000001#32 ∨ w = 0x00000002#32 ∨ w = 0x00000011#32 ∨ w = 0x00000012#32 := by
  simp only [decode_eq_ok_iff]
  constructor
  · rintro ⟨i, rfl⟩
    cases i <;> simp
  · rintro (rfl | rfl | rfl | rfl)
    · exact ⟨.initd, encode_initd.symm⟩
    · exact ⟨.rund, encode_rund.symm⟩
    · exact ⟨.initi, encode_initi.symm⟩
    · exact ⟨.runi, encode_runi.symm⟩

theorem decode_eq_error_of_not_exists {w : Word} (h : ¬ ∃ i, decode w = .ok i) :
    decode w = .error .illegalCommandWord := by
  cases hd : decode w with
  | ok i => exact absurd ⟨i, hd⟩ h
  | error e => cases e; rfl

/-- Settles O4: no command decodes from such a word, so its fields are illegal and the write to CMD is
the violation of cause 1. -/
theorem illegalWordIsRejectedWhole : Obligations.IllegalWordIsRejectedWhole := by
  intro w s
  simp only [ne_eq, ← not_or, ← exists_decode_ok_iff]
  constructor
  · rw [← wf_fieldsOfWord_iff, CmdFields.wf_iff, not_and_or]
  · intro h
    rw [Machine.hostWriteReg_cmd rfl, Machine.writeCommand_illegal (decode_eq_error_of_not_exists h)]
    rfl

end Sys2Proof
end

section
/-! SUPPORT. Scripts: what running the first line of a script leaves, and what the expansions of the
pseudo-instructions do (spec/30_encoding.md R90, R91, R92). -/

namespace Sys2Proof.Machine

/-! ## One line of a script -/

/-- The host sends the first line; the rest of the script is still to come. -/
theorem step_loadScript_cons (l : ScriptLine) (ls : List ScriptLine) (s : State) :
    step (loadScript (l :: ls) s) = transact (lineTransaction l) (loadScript ls s) := rfl

theorem runSteps_succ_of_next {s t : State} (h : step s = .next t) (k : Nat) :
    runSteps (k + 1) s = runSteps k t := by
  rw [runSteps, h]

theorem runSteps_one (s : State) : runSteps 1 s = step s := by
  rw [runSteps]
  cases step s <;> rfl

/-- R22: the argument registers after a write of `d` to the register `r`. -/
def Args.write (r : Reg) (d : Word) (v : Args) : Args :=
  match r with
  | .a0 => { v with a0 := d }
  | .a1 => { v with a1 := d }
  | .a2 => { v with a2 := d }
  | .a3 => { v with a3 := d }
  | .a4 => { v with a4 := d }
  | _ => v

/-- R211: a write to any register but CMD changes an argument register at most. -/
theorem hostWriteReg_regOffset {r : Reg} (hr : r ≠ .cmd) (d : Word) (s : State) :
    hostWriteReg (regOffset r) d s = .next (s.setArgs (s.args.write r d)) := by
  cases r
  case cmd => exact absurd rfl hr
  all_goals rfl

/-- R91: a `wr` line to a register other than CMD. -/
theorem runSteps_wr {r : Reg} (hr : r ≠ .cmd) (v : Int) (ls : List ScriptLine) (k : Nat) (s : State) :
    runSteps (k + 1) (loadScript (.wr r v :: ls) s) =
      runSteps k (loadScript ls (s.setArgs (s.args.write r (u32 v)))) := by
  refine runSteps_succ_of_next ((step_loadScript_cons _ ls s).trans ?_) k
  exact hostWriteReg_regOffset hr (u32 v) (loadScript ls s)

/-- R91: a `cmd` line at the end of a script runs its command. -/
theorem runSteps_cmd (i : Instr) (s : State) :
    runSteps 1 (loadScript [.cmd i] s) = exec i (s.setCmd (encode i)) := by
  rw [runSteps_one, step_loadScript_cons, lineTransaction, transact, hostWriteReg_cmd rfl,
    writeCommand_ok (decode_encode i)]
  rfl

/-- R91: an `mw` line inside MEM stores its word. -/
theorem runSteps_mw {a : Nat} {s : State} (ha : a < s.memWords) (h32 : a < 4294967296) (v : Int)
    (ls : List ScriptLine) (k : Nat) :
    runSteps (k + 1) (loadScript (.mw a v :: ls) s) =
      runSteps k (loadScript ls (writeWord a (w16 v) s)) := by
  have hu : (u32 a).toNat = a := by
    rw [u32, BitVec.ofInt_natCast, BitVec.toNat_ofNat]
    exact Nat.mod_eq_of_lt h32
  refine runSteps_succ_of_next ((step_loadScript_cons _ ls s).trans ?_) k
  rw [lineTransaction, transact, hostWriteMem, hu]
  exact if_pos ha

/-! ## The command pseudo-instructions -/

/-- R91: five `wr` lines and a command. -/
theorem runSteps_fiveArgs (v0 v1 v2 v3 v4 : Int) (i : Instr) (s : State) :
    runSteps 6 (loadScript [.wr .a0 v0, .wr .a1 v1, .wr .a2 v2, .wr .a3 v3, .wr .a4 v4, .cmd i] s) =
      exec i ((s.setArgs ⟨u32 v0, u32 v1, u32 v2, u32 v3, u32 v4⟩).setCmd (encode i)) := by
  simp only [runSteps_wr, runSteps_cmd, ne_eq, reduceCtorEq, not_false_eq_true]
  rfl

/-- R91: three `wr` lines and a command; A3 and A4 stay. -/
theorem runSteps_threeArgs (v0 v1 v2 : Int) (i : Instr) (s : State) :
    runSteps 4 (loadScript [.wr .a0 v0, .wr .a1 v1, .wr .a2 v2, .cmd i] s) =
      exec i ((s.setArgs ⟨u32 v0, u32 v1, u32 v2, s.args.a3, s.args.a4⟩).setCmd (encode i)) := by
  simp only [runSteps_wr, runSteps_cmd, ne_eq, reduceCtorEq, not_false_eq_true]
  rfl

/-- Settles O13: the argument writes change the argument registers alone, and the last line is the
command. -/
theorem pseudoInstructionsRunTheirCommand : Obligations.PseudoInstructionsRunTheirCommand := by
  intro s v0 v1 v2 v3 v4 _
  rw [← encode_initd, ← encode_rund, ← encode_initi, ← encode_runi]
  exact ⟨runSteps_fiveArgs v0 v1 v2 v3 v4 .initd s, runSteps_threeArgs v0 v1 v2 .rund s,
    runSteps_fiveArgs v0 v1 v2 v3 v4 .initi s, runSteps_threeArgs v0 v1 v2 .runi s⟩

/-! ## fill and zero -/

/-- R91: the state after the words of `vs` are stored from address `a` on. -/
def storeWords : Nat → List Int → State → State
  | _, [], s => s
  | a, v :: vs, s => storeWords (a + 1) vs (writeWord a (w16 v) s)

/-- Stores change MEM alone. -/
theorem storeWords_eq_setMem (a : Nat) (vs : List Int) (s : State) :
    storeWords a vs s = s.setMem (storeWords a vs s).mem := by
  induction vs generalizing a s with
  | nil => rfl
  | cons v vs ih => exact ih (a + 1) (writeWord a (w16 v) s)

theorem readWord_storeWords_of_outside {a b : Nat} {vs : List Int} (hb : b < a ∨ a + vs.length ≤ b)
    (s : State) : readWord b (storeWords a vs s) = readWord b s := by
  induction vs generalizing a s with
  | nil => rfl
  | cons v vs ih =>
    rw [List.length_cons] at hb
    rw [storeWords, ih (by omega), readWord_writeWord, if_neg (by omega)]

theorem readWord_storeWords {vs : List Int} {i : Nat} {v : Int} (h : vs[i]? = some v) (a : Nat)
    (s : State) : readWord (a + i) (storeWords a vs s) = w16 v := by
  induction vs generalizing a i s with
  | nil => cases h
  | cons u vs ih =>
    cases i with
    | zero =>
      cases h
      rw [storeWords, readWord_storeWords_of_outside (by omega), readWord_writeWord,
        if_pos (Nat.add_zero a)]
    | succ i =>
      rw [storeWords, ← Nat.succ_add_eq_add_succ]
      exact ih h (a + 1) _

/-- R91: the lines of `fill` store their words one after the other. -/
theorem runSteps_fillLines {a : Nat} {vs : List Int} {s : State} (hin : a + vs.length ≤ s.memWords)
    (h32 : s.memWords ≤ 4294967296) :
    runSteps vs.length (loadScript (fillLines a vs) s) = .next (loadScript [] (storeWords a vs s)) := by
  induction vs generalizing a s with
  | nil => rfl
  | cons v vs ih =>
    rw [List.length_cons] at hin
    rw [fillLines, List.length_cons, runSteps_mw (by omega) (by omega), storeWords]
    exact ih (a := a + 1) (s := writeWord a (w16 v) s) (by rw [Nat.succ_add]; exact hin) h32

/-- R91: what `fill` places and what it leaves; `zero` is the `fill` of n zeros. -/
theorem fillLines_placesWords {a : Nat} {vs : List Int} {s : State} (hin : a + vs.length ≤ s.memWords)
    (h32 : s.memWords ≤ 4294967296) :
    ∃ t, runSteps vs.length (loadScript (fillLines a vs) s) = .next t ∧ t = { s with mem := t.mem } ∧
      (∀ (i : Nat) (v : Int), vs[i]? = some v → readWord (a + i) t = w16 v) ∧
      ∀ b, (b < a ∨ a + vs.length ≤ b) → readWord b t = readWord b s :=
  ⟨storeWords a vs s, runSteps_fillLines hin h32, storeWords_eq_setMem a vs s,
    fun _ _ h => readWord_storeWords h a s, fun _ hb => readWord_storeWords_of_outside hb s⟩

/-- Settles O14: `fill` stores its words in order, each inside MEM and none over another. -/
theorem fillPlacesTheWords : Obligations.FillPlacesTheWords := by
  refine ⟨fun s a vs _ hin h32 => fillLines_placesWords hin h32, fun s a n _ hin h32 => ?_⟩
  obtain ⟨t, hrun, hframe, hwords, houtside⟩ :=
    fillLines_placesWords (vs := List.replicate n 0) (by rwa [List.length_replicate]) h32
  rw [List.length_replicate] at hrun houtside
  refine ⟨t, hrun, hframe, fun i hi => ?_, houtside⟩
  exact (hwords i 0 (List.getElem?_replicate_of_lt hi)).trans (by decide)

end Sys2Proof.Machine
end

section
/-! SUPPORT. The multiply-accumulate datapath: clamping, rounding and the dot product
(spec/40_arith_mac.md R111 to R120). -/

namespace Sys2Proof.Machine

/-! ## Clamping -/

theorem clamp_eq_max_min {v lo hi : Int} (h : lo ≤ hi) : clamp v lo hi = max lo (min hi v) := by
  unfold clamp; split_ifs <;> omega

theorem clamp_of_le {v lo hi : Int} (h : v ≤ lo) (hl : lo ≤ hi) : clamp v lo hi = lo := by
  rw [clamp_eq_max_min hl]; omega

theorem clamp_of_ge {v lo hi : Int} (h : hi ≤ v) (hl : lo ≤ hi) : clamp v lo hi = hi := by
  rw [clamp_eq_max_min hl]; omega

/-! ## The product -/

/-- R111: the least product pairs the least operand with the greatest. -/
theorem le_mul_of_q15 {c x : Int} (hc : -32768 ≤ c ∧ c ≤ 32767) (hx : -32768 ≤ x ∧ x ≤ 32767) :
    -1073709056 ≤ mul c x := by
  obtain ⟨hc1, hc2⟩ := hc
  obtain ⟨hx1, hx2⟩ := hx
  unfold mul
  obtain hneg | hpos := lt_or_ge c 0
  · have : c * 32767 ≤ c * x := mul_le_mul_of_nonpos_left hx2 hneg.le
    omega
  · have : c * -32768 ≤ c * x := mul_le_mul_of_nonneg_left hx1 hpos
    omega

/-- R111: a product of 2^30 has a negative c, so it is at most -32768 * c, which is less than 2^30 unless
c is -32768 too. -/
theorem mul_eq_max_iff {c x : Int} (hc : -32768 ≤ c ∧ c ≤ 32767) (hx : -32768 ≤ x ∧ x ≤ 32767) :
    mul c x = 1073741824 ↔ c = -32768 ∧ x = -32768 := by
  obtain ⟨hc1, hc2⟩ := hc
  obtain ⟨hx1, hx2⟩ := hx
  constructor
  · intro h
    unfold mul at h
    have hneg : c < 0 := by nlinarith
    have hcx : c * x ≤ c * -32768 := mul_le_mul_of_nonpos_left hx1 hneg.le
    obtain rfl : c = -32768 := by omega
    exact ⟨rfl, by omega⟩
  · rintro ⟨rfl, rfl⟩
    rfl

/-- Settles O46: the two bounds, and the one corner of the upper one. -/
theorem productRange : Obligations.ProductRange := fun _ _ hc1 hc2 hx1 hx2 =>
  ⟨rfl, le_mul_of_q15 ⟨hc1, hc2⟩ ⟨hx1, hx2⟩, (mul_bounds ⟨hc1, hc2⟩ ⟨hx1, hx2⟩).2,
    mul_eq_max_iff ⟨hc1, hc2⟩ ⟨hx1, hx2⟩⟩

/-! ## The accumulator -/

/-- A value clamped to the 64-bit signed range is the value of the word that stores it. -/
theorem toInt_ofInt_clamp (v : Int) :
    (BitVec.ofInt 64 (clamp v accMin accMax)).toInt = clamp v accMin accMax := by
  have h1 : -9223372036854775808 ≤ clamp v accMin accMax := le_clamp (by decide)
  have h2 : clamp v accMin accMax ≤ 9223372036854775807 := clamp_le (by decide)
  rw [BitVec.toInt_ofInt]
  exact Int.bmod_eq_of_le (by norm_num; omega) (by norm_num; omega)

/-- R113: MAC adds saturating, whatever ACC holds; `mac_acc` is the case where no limit is met. -/
theorem mac_acc_clamp (c x : Int) (s : State) :
    (mac c x s).acc.toInt = clamp (s.acc.toInt + c * x) accMin accMax :=
  toInt_ofInt_clamp _

/-- Settles O47: both are updates of ACC, and the sum is clamped before it is stored. -/
theorem macIsSaturatingAdd : Obligations.MacIsSaturatingAdd := by
  refine ⟨fun _ => rfl, fun s c x => ⟨rfl, ?_⟩⟩
  rw [mac_acc_clamp, clamp_eq_max_min (by decide), accMin, accMax]

/-! ## Rounding -/

/-- R115: RND reaches k exactly from half a unit below k up. -/
theorem le_rnd_iff {k a : Int} : k ≤ rnd a ↔ 32768 * k - 16384 ≤ a := by
  rw [rnd_eq, Int.le_ediv_iff_mul_le (by decide)]
  omega

theorem rnd_lt_iff {k a : Int} : rnd a < k ↔ a < 32768 * k - 16384 := by
  rw [← not_le, le_rnd_iff, not_le]

/-- R115: RND is the one integer whose half-open unit interval holds a. -/
theorem rnd_eq_iff {k a : Int} : rnd a = k ↔ 32768 * k - 16384 ≤ a ∧ a < 32768 * k + 16384 := by
  have hle := le_rnd_iff (k := k) (a := a)
  have hlt := rnd_lt_iff (k := k + 1) (a := a)
  omega

theorem rnd_mono {a b : Int} (h : a ≤ b) : rnd a ≤ rnd b :=
  le_rnd_iff.mpr ((le_rnd_iff.mp le_rfl).trans h)

/-- Settles O48. -/
theorem roundIsNearestTiesUp : Obligations.RoundIsNearestTiesUp := fun _ => rnd_eq_iff.mp rfl

/-! ## Rounding, then clamping -/

/-- R116: the upper limit, from half a unit below 32768 up. -/
theorem sat16_rnd_of_ge {a : Int} (h : 1073725440 ≤ a) : sat16 (rnd a) = 32767 := by
  have hr : 32768 ≤ rnd a := le_rnd_iff.mpr (by omega)
  exact clamp_of_ge (by omega) (by decide)

/-- R116: the lower limit, below half a unit under -32768. -/
theorem sat16_rnd_of_le {a : Int} (h : a ≤ -1073758209) : sat16 (rnd a) = -32768 := by
  have hr : rnd a < -32768 := rnd_lt_iff.mpr (by omega)
  exact clamp_of_le (by omega) (by decide)

/-- R116: in between, RND needs no clamp. -/
theorem sat16_rnd_of_between {a : Int} (hl : -1073758209 < a) (hu : a < 1073725440) :
    sat16 (rnd a) = rnd a := by
  have hr1 : -32768 ≤ rnd a := le_rnd_iff.mpr (by omega)
  have hr2 : rnd a < 32768 := rnd_lt_iff.mpr (by omega)
  exact clamp_of_mem hr1 (by omega)

theorem sat16_rnd_mono {a b : Int} (h : a ≤ b) : sat16 (rnd a) ≤ sat16 (rnd b) :=
  clamp_mono (rnd_mono h) (by decide)

/-- Settles O49: the ranges of the accumulator are those on which RND passes a limit. -/
theorem roundThenSaturate : Obligations.RoundThenSaturate := fun _ =>
  ⟨rfl, sat16_rnd_of_ge, sat16_rnd_of_le, fun hl hu => rnd_eq_iff.mpr (by omega),
    sat16_rnd_of_between⟩

/-! ## The dot product -/

/-- Settles O50: the accumulator holds the exact sum, so RNDSAT rounds and clamps that. -/
theorem dotClosedForm : Obligations.DotClosedForm := by
  intro n coefAt sampleAt s hn
  rw [rndsat, accumulate_acc hn, rnd_eq, sat16]

/-- R120: where every product is the same, DOT rounds and clamps n times that product. -/
theorem dot_of_const_product {n : Nat} {c x : Nat → Int} {p : Int} (h : ∀ k, k < n → c k * x k = p) :
    dot n c x = sat16 (rnd (n * p)) := by
  rw [dot, Finset.sum_congr rfl fun k hk => h k (Finset.mem_range.mp hk), Finset.sum_const,
    Finset.card_range, nsmul_eq_mul]

theorem dot_of_zero_samples {n : Nat} {c x : Nat → Int} (h : ∀ k, k < n → x k = 0) :
    dot n c x = 0 := by
  rw [dot_of_const_product (p := 0) fun k hk => by rw [h k hk, mul_zero], mul_zero]
  rfl

/-- R120: one product of -32768 by itself already reaches the upper limit. -/
theorem dot_of_least_operands {n : Nat} {c x : Nat → Int} (hn : 1 ≤ n)
    (h : ∀ k, k < n → c k = -32768 ∧ x k = -32768) : dot n c x = 32767 := by
  have hp : ∀ k, k < n → c k * x k = 1073741824 := fun k hk => by
    rw [(h k hk).1, (h k hk).2]; rfl
  rw [dot_of_const_product hp]
  exact sat16_rnd_of_ge (by omega)

/-- R120: the most negative product rounds to -32767, and two of them pass the lower limit. -/
theorem dot_of_least_products {n : Nat} {c x : Nat → Int}
    (h : ∀ k, k < n → c k = -32768 ∧ x k = 32767) :
    (n = 1 → dot n c x = -32767) ∧ (2 ≤ n → dot n c x = -32768) := by
  have hp : ∀ k, k < n → c k * x k = -1073709056 := fun k hk => by
    rw [(h k hk).1, (h k hk).2]; rfl
  rw [dot_of_const_product hp]
  constructor
  · rintro rfl
    rfl
  · intro hn
    exact sat16_rnd_of_le (by omega)

/-- Settles O51: the range is that of the clamp, and DOT is a monotone function of the exact sum. -/
theorem dotProperties : Obligations.DotProperties :=
  ⟨fun _ _ _ => sat16_bounds _, fun _ _ _ => dot_of_zero_samples,
    fun _ _ _ _ _ _ => sat16_rnd_mono, fun _ _ _ => dot_of_least_operands,
    fun _ _ _ => dot_of_least_products⟩

end Sys2Proof.Machine
end

section
/-! SUPPORT. The delay line: the state region after an accepted RUN, the history at the end of a stream, and
the commands that leave MEM alone (spec/41_delay_line.md R130, R136, R137, R138). -/

namespace Sys2Proof.Machine

/-! ## Commands that leave MEM alone -/

/-- Settles O37: of the answers a command can give, only an accepted RUN works on MEM; the condition that
decides among the others does not read MEM either. -/
theorem onlyAcceptedRunsTouchMemory : Obligations.OnlyAcceptedRunsTouchMemory := by
  intro i s t h hi
  cases answers_of_exec h with
  | initdCommits hv => exact ⟨rfl, fun m => execInitd_of_valid (s := s.setMem m) hv⟩
  | initdFails hv => exact ⟨rfl, fun m => execInitd_of_invalid (s := s.setMem m) hv⟩
  | initiCommits hv => exact ⟨rfl, fun m => execIniti_of_valid (s := s.setMem m) hv⟩
  | initiFails hv => exact ⟨rfl, fun m => execIniti_of_invalid (s := s.setMem m) hv⟩
  | rundRejected hc => exact ⟨rfl, fun m => execRund_of_reject (s := s.setMem m) hc⟩
  | runiRejected hc => exact ⟨rfl, fun m => execRuni_of_reject (s := s.setMem m) hc⟩
  | rundRuns => simp at hi
  | runiRuns => simp at hi

/-! ## The state region after a RUN -/

/-- R163: a word of MEM after an accepted RUND. -/
theorem readWord_of_exec_rund {s t : State} (hr : s.runsD) (h : exec .rund s = .next t) (a : Nat) :
    readWord a t = wordAfterRund s a := by
  rw [eq_of_exec_rund hr h, readWord_respond, readWord_runDecimator hr]

/-- R193: a word of MEM after an accepted RUNI. -/
theorem readWord_of_exec_runi {s t : State} (hr : s.runsI) (h : exec .runi s = .next t) (a : Nat) :
    readWord a t = wordAfterRuni s a := by
  rw [eq_of_exec_runi hr h, readWord_respond, readWord_runInterpolator hr]

section StateRegion

variable {st h b pOut nOut j : Nat} (w : Nat → Sample) (out : Nat → Int) (s : State)

/-- R136, first line: the new history is the end of the window. -/
theorem wordAfterRun_history (hj : j < h) :
    wordAfterRun st h b pOut nOut w out s (st + j) = w (b + j) := by
  rw [wordAfterRun, if_pos (by omega), Nat.add_sub_cancel_left]

/-- R136, second line: above the history the window stays as APPEND left it. -/
theorem wordAfterRun_block (hj : h ≤ j) (hjb : j < h + b) :
    wordAfterRun st h b pOut nOut w out s (st + j) = w j := by
  rw [wordAfterRun, if_neg (by omega), if_pos (by omega), Nat.add_sub_cancel_left]

/-- R136, third line: above the window a word stays, unless it is an output. -/
theorem wordAfterRun_above (hj : h + b ≤ j) (hout : ¬ (pOut ≤ st + j ∧ st + j < pOut + nOut)) :
    wordAfterRun st h b pOut nOut w out s (st + j) = readWord (st + j) s :=
  wordAfterRun_of_outside w out s (by simp only [Region.Has]; omega) hout

end StateRegion

/-- Settles O38: the lines of R136, read off the memory after a RUN of either channel. -/
theorem stateRegionAfterRun : Obligations.StateRegionAfterRun := by
  refine fun s t => ⟨fun hr ht => ?_, fun hr ht => ?_⟩
  · simp only [readWord_of_exec_rund hr ht]
    exact ⟨fun j => wordAfterRun_history _ _ s, fun j => wordAfterRun_block _ _ s,
      fun j => wordAfterRun_above _ _ s⟩
  · simp only [readWord_of_exec_runi hr ht]
    exact ⟨fun j => wordAfterRun_history _ _ s, fun j => wordAfterRun_block _ _ s,
      fun j => wordAfterRun_above _ _ s⟩

/-! ## The history at the end of a stream -/

/-- R130: the window is the history followed by the input block. -/
theorem map_windowWord (st h pIn b : Nat) (s : State) :
    (List.range (h + b)).map (windowWord st h pIn s) = words st h s ++ words pIn b s := by
  rw [List.range_add, List.map_append, List.map_map]
  refine congrArg₂ _ (List.map_congr_left fun j hj => ?_) (List.map_congr_left fun j _ => ?_)
  · exact if_pos (List.mem_range.mp hj)
  · simp [windowWord]

/-- Where the history words hold the window from word `b` on, they are the history and the block without
their first `b` words. -/
theorem words_eq_drop {st h pIn b : Nat} {s t : State}
    (hhist : ∀ j, j < h → readWord (st + j) t = windowWord st h pIn s (b + j)) :
    words st h t = (words st h s ++ words pIn b s).drop b := by
  rw [← map_windowWord, Nat.add_comm h b, List.range_add, List.map_append, List.drop_left' (by simp),
    List.map_map]
  exact List.map_congr_left fun j hj => hhist j (List.mem_range.mp hj)

/-- R136: a RUND drops the oldest words of the history followed by its block, one for each word of the
block. -/
theorem historyWordsD_of_exec_rund {s t : State} (hr : s.runsD) (h : exec .rund s = .next t) :
    historyWordsD s.descD t =
      (historyWordsD s.descD s ++ inputBlock s).drop (inputBlock s).length := by
  rw [inputBlock, length_words]
  exact words_eq_drop ((stateRegionAfterRun s t).1 hr h).1

/-- R136: a RUNI drops the oldest words of the history followed by its block, one for each word of the
block. -/
theorem historyWordsI_of_exec_runi {s t : State} (hr : s.runsI) (h : exec .runi s = .next t) :
    historyWordsI s.descI t =
      (historyWordsI s.descI s ++ inputBlock s).drop (inputBlock s).length := by
  rw [inputBlock, length_words]
  exact words_eq_drop ((stateRegionAfterRun s t).2 hr h).1

/-- Sliding a history over one block and then over the rest of a stream is sliding it over both. -/
theorem drop_drop_append (h block rest : List Sample) :
    ((h ++ block).drop block.length ++ rest).drop rest.length =
      (h ++ (block ++ rest)).drop (block ++ rest).length := by
  rw [← List.append_assoc, List.length_append, ← List.drop_drop,
    List.drop_append_of_le_length (l₁ := h ++ block) (by simp)]

/-- R137 for any kind of stream, where each run slides the history over its block. -/
theorem history_of_stream {Stream : List Sample → List (State × State) → List Sample → Prop}
    {history : State → List Sample} (hnil : ∀ h h', Stream h [] h' → h' = h)
    (hcons : ∀ h r runs h', Stream h (r :: runs) h' →
      history r.2 = (h ++ inputBlock r.1).drop (inputBlock r.1).length ∧ Stream (history r.2) runs h')
    {h h' : List Sample} {runs : List (State × State)} (hs : Stream h runs h') :
    h' = (h ++ streamIn runs).drop (streamIn runs).length := by
  induction runs generalizing h with
  | nil => simpa using hnil h h' hs
  | cons r runs ih =>
    obtain ⟨hr, hrest⟩ := hcons h r runs h' hs
    rw [ih hrest, hr, streamIn_cons, drop_drop_append]

theorem history_of_rundStream {d : Descriptor} {h h' : List Sample} {runs : List (State × State)}
    (hs : RundStream d h runs h') : h' = (h ++ streamIn runs).drop (streamIn runs).length := by
  refine history_of_stream (history := historyWordsD d) (fun _ _ hnil => hnil) ?_ hs
  rintro h ⟨s, t⟩ runs h' ⟨rfl, rfl, hr, ht, hrest⟩
  exact ⟨historyWordsD_of_exec_rund hr ht, hrest⟩

theorem history_of_runiStream {d : Descriptor} {h h' : List Sample} {runs : List (State × State)}
    (hs : RuniStream d h runs h') : h' = (h ++ streamIn runs).drop (streamIn runs).length := by
  refine history_of_stream (history := historyWordsI d) (fun _ _ hnil => hnil) ?_ hs
  rintro h ⟨s, t⟩ runs h' ⟨rfl, rfl, hr, ht, hrest⟩
  exact ⟨historyWordsI_of_exec_runi hr ht, hrest⟩

/-- Settles O39: by induction on the runs the history is the end of the stream, and the next window is that
history and the next block. -/
theorem historyIsEndOfStream : Obligations.HistoryIsEndOfStream := by
  refine ⟨fun d h h' runs hs => ⟨history_of_rundStream hs, ?_⟩,
    fun d h h' runs hs => ⟨history_of_runiStream hs, ?_⟩⟩
  · rintro s rfl hh
    rw [← history_of_rundStream hs, ← hh]
    exact map_windowWord _ _ _ _ s
  · rintro s rfl hh
    rw [← history_of_runiStream hs, ← hh]
    exact map_windowWord _ _ _ _ s

end Sys2Proof.Machine
end

section
/-! SUPPORT. The decimator channel: what INITD commits, when RUND is accepted, and what it leaves
(spec/42_decimator.md R153 to R164). -/

namespace Sys2Proof.Machine

/-! ## Initialisation and acceptance -/

/-- Settles O22: the nine conditions are `validD` of the operands. -/
theorem initdCommitsValidOperands : Obligations.InitdCommitsValidOperands :=
  fun _ hfac htaps hmod hcoef hst hblk hblkMod hcoefEnd hstEnd =>
    execInitd_of_valid ⟨hfac, htaps, hmod, hcoef, hst, hblk, hblkMod, hcoefEnd, hstEnd⟩

/-- Settles O23: the nine conditions are `validD` of the operands. -/
theorem initdFailureCommitsNothing : Obligations.InitdFailureCommitsNothing :=
  fun _ => execInitd_of_invalid

/-- A RUND answered SUCCESS was no violation, so it ran. -/
theorem runsD_of_success {s t : State} (h : exec .rund s = .next t) (ht : t.status.resp = .success) :
    s.runsD := by
  obtain ⟨c, -, rfl⟩ | ⟨hr, -⟩ := execRund_cases h
  · simp at ht
  · exact hr

/-- Settles O26: the chain of R158's lines is `rejectD`, which decides between the two answers. -/
theorem rundAcceptance : Obligations.RundAcceptance := by
  intro s b m rejected
  have hrej : rejected = rejectD s := by
    simp only [rejected, rejectD, Bool.not_eq_true, not_le, not_and_or, ne_eq, not_not]
    rfl
  rw [hrej]
  refine ⟨fun c hc => execRund_of_reject hc, fun hnone t ht => ?_⟩
  obtain ⟨c, hc, -⟩ | ⟨-, rfl⟩ := execRund_cases ht
  · simp [hnone] at hc
  · rfl

/-! ## The result of a RUND -/

/-- Settles O30: the memory is `wordAfterRund`, and the work changes ACC and MEM alone. -/
theorem rundResult : Obligations.RundResult := fun s hr =>
  ⟨respond .success (runDecimator s), execRund_of_runsD hr, readWord_runDecimator hr, by
    rw [onlyAccMem_runDecimator s]
    rfl⟩

/-- Settles O34: a rejected RUND changes STATUS alone; an accepted one changes ACC and MEM, and in MEM the
words of STATE and OUT. -/
theorem rundFrame : Obligations.RundFrame := by
  intro s t h
  obtain ⟨c, -, rfl⟩ | ⟨hr, rfl⟩ := execRund_cases h
  · exact ⟨rfl, rfl, rfl, rfl, rfl, rfl, rfl, rfl, rfl, fun _ _ _ => rfl⟩
  · obtain ⟨hargs, hcmd, hstatus, hdescD, hdescI, hwords, hevents, hreturned⟩ :=
      (onlyAccMem_runDecimator s).fields
    refine ⟨hargs, hcmd, hdescD, hdescI, (congrArg Status.liveD hstatus :),
      (congrArg Status.liveI hstatus :), hwords, hevents, hreturned, fun a hst hout => ?_⟩
    rw [readWord_respond, readWord_runDecimator hr]
    exact wordAfterRun_of_outside _ _ s hst hout

/-- R163: a word of OUT, disjoint from STATE, holds its output. -/
theorem wordAfterRun_output {st h b pOut nOut i : Nat} (w : Nat → Sample) (out : Nat → Int) (s : State)
    (hd : Region.disjoint ⟨st, h + b⟩ ⟨pOut, nOut⟩) (hi : i < nOut) :
    wordAfterRun st h b pOut nOut w out s (pOut + i) = w16 (out i) := by
  simp only [Region.disjoint] at hd
  rw [wordAfterRun, if_neg (by omega), if_neg (by omega), if_pos (by omega), Nat.add_sub_cancel_left]

/-- R160: output `i` of an accepted RUND, as a word. -/
theorem readWord_output_of_exec_rund {s t : State} (hr : s.runsD) (h : exec .rund s = .next t) {i : Nat}
    (hi : i < outputsD s) : readWord (outputBase s + i) t = w16 (decimatedSample s i) := by
  rw [readWord_of_exec_rund hr h]
  obtain ⟨-, -, -, -, -, -, hout, -⟩ := hr
  exact wordAfterRun_output _ _ s hout hi

theorem s16_w16_dot (n : Nat) (c x : Nat → Int) : s16 (w16 (dot n c x)) = dot n c x :=
  s16_w16 (sat16_bounds _).1 (sat16_bounds _).2

/-- R160: output `i` of an accepted RUND, as an integer. -/
theorem memRead_output_of_exec_rund {s t : State} (hr : s.runsD) (h : exec .rund s = .next t) {i : Nat}
    (hi : i < outputsD s) : memRead (outputBase s + i) t = decimatedSample s i := by
  rw [memRead, readWord_output_of_exec_rund hr h hi, decimatedSample, s16_w16_dot]

/-- R130: the window as integers. -/
theorem s16_windowWord (st h pIn : Nat) (s : State) (j : Nat) :
    s16 (windowWord st h pIn s j) = if j < h then memRead (st + j) s else memRead (pIn + (j - h)) s :=
  apply_ite s16 _ _ _

/-- Settles O32: the output word is `decimatedSample`, the sum over the window. -/
theorem rundOutputs : Obligations.RundOutputs := by
  intro s t hr ht i hi w
  have hw : (fun j => s16 (windowD s j)) = w := funext (s16_windowWord _ _ _ s)
  rw [← hw]
  exact memRead_output_of_exec_rund hr ht hi

/-- Settles O44: from a zero history the window is the input block with zeros before its start, and tap `k`
of output `q` reads it at stream index `q*M - k`. -/
theorem rundIsDecimatedConvolution : Obligations.RundIsDecimatedConvolution := by
  intro s t hr ht hzero q hq
  rw [memRead_output_of_exec_rund hr ht hq]
  refine dot_congr (fun _ _ => rfl) fun k hk => ?_
  rw [windowD, s16_windowWord]
  by_cases hkq : k ≤ q * s.descD.factor.toNat
  · rw [if_neg (by unfold historyD; omega), if_pos hkq]
    congr 2
    unfold historyD
    omega
  · have hhist : q * s.descD.factor.toNat + s.descD.taps.toNat - 1 - k < historyD s.descD := by
      unfold historyD; omega
    rw [if_pos hhist, if_neg hkq, memRead, hzero _ hhist]
    rfl

/-! ## Empty blocks -/

/-- R164, R194: with B = 0 the new history is the old one, and nothing is appended or stored. -/
theorem wordAfterRun_empty (st h pIn pOut : Nat) (out : Nat → Int) (s : State) (a : Nat) :
    wordAfterRun st h 0 pOut 0 (windowWord st h pIn s) out s a = readWord a s := by
  by_cases ha : st ≤ a ∧ a < st + h
  · rw [wordAfterRun, if_pos ha, windowWord, if_pos (by omega)]
    congr 1
    omega
  · exact wordAfterRun_of_outside _ _ s ha (by simp [Region.Has])

/-- Settles O40: an empty block has no outputs on either channel. -/
theorem emptyBlockLeavesMemory : Obligations.EmptyBlockLeavesMemory := by
  intro s t hA2
  have hb : blockSize s = 0 := congrArg BitVec.toNat hA2
  have hD : outputsD s = 0 := by rw [outputsD, hb, Nat.zero_div]
  have hI : outputsI s = 0 := by rw [outputsI, hb, Nat.zero_mul]
  refine ⟨fun hr ht => ⟨by rw [eq_of_exec_rund hr ht]; rfl, fun a => ?_⟩,
    fun hr ht => ⟨by rw [eq_of_exec_runi hr ht]; rfl, fun a => ?_⟩⟩
  · rw [readWord_of_exec_rund hr ht, wordAfterRund, hb, hD]
    exact wordAfterRun_empty _ _ _ _ _ s a
  · rw [readWord_of_exec_runi hr ht, wordAfterRuni, hb, hI]
    exact wordAfterRun_empty _ _ _ _ _ s a

end Sys2Proof.Machine
end

section
/-! SUPPORT. A stream through RUND in blocks: what a sequence of accepted RUNDs stores is a function of the
history, the coefficients and the stream alone, and blocks laid end to end in one memory are such a sequence
(spec/42_decimator.md R165). -/

namespace Sys2Proof.Machine

/-! ## Words from a base on -/

theorem words_congr {base n : Nat} {s t : State}
    (h : ∀ a, Region.Has ⟨base, n⟩ a → readWord a t = readWord a s) : words base n t = words base n s :=
  List.map_congr_left fun j hj =>
    h _ ⟨Nat.le_add_right _ j, Nat.add_lt_add_left (List.mem_range.mp hj) _⟩

theorem readWord_eq_of_words_eq {base n : Nat} {s t : State} (h : words base n s = words base n t) {j : Nat}
    (hj : j < n) : readWord (base + j) s = readWord (base + j) t :=
  List.map_inj_left.mp h j (List.mem_range.mpr hj)

theorem words_add (base n m : Nat) (s : State) :
    words base (n + m) s = words base n s ++ words (base + n) m s := by
  simp only [words, List.range_add, List.map_append, List.map_map, Function.comp_def, Nat.add_assoc]

/-! ## The decimated stream -/

/-- R160 on a stream: the outputs from history `h` and input `z` with coefficients `c`, output `i` from the
words of the history followed by the input that end at `i*M + T - 1`. -/
def decimatedStream (d : Descriptor) (c : Nat → Sample) (h z : List Sample) : List Sample :=
  (List.range (z.length / d.factor.toNat)).map fun i =>
    w16 (dot d.taps.toNat (fun k => s16 (c k))
      fun k => s16 ((h ++ z).getD (i * d.factor.toNat + d.taps.toNat - 1 - k) 0))

/-- R130: the window is the history followed by the input block. -/
theorem getD_history_block {s : State} {j : Nat} (hj : j < historyD s.descD + blockSize s) :
    (historyWordsD s.descD s ++ inputBlock s).getD j 0 = windowD s j := by
  rw [historyWordsD, inputBlock, ← map_windowWord, List.getD_eq_getElem?_getD, List.getElem?_map,
    List.getElem?_range hj]
  rfl

/-- R160: an accepted RUND stores the decimated stream of its block. -/
theorem words_output_of_exec_rund {s t : State} {c : Nat → Sample} (hr : s.runsD)
    (ht : exec .rund s = .next t)
    (hc : ∀ k, k < s.descD.taps.toNat → readWord (s.descD.coef.toNat + k) s = c k) :
    words (outputBase s) (outputsD s) t =
      decimatedStream s.descD c (historyWordsD s.descD s) (inputBlock s) := by
  unfold decimatedStream
  rw [inputBlock, length_words]
  refine List.map_congr_left fun i hi => ?_
  have hi := List.mem_range.mp hi
  rw [readWord_output_of_exec_rund hr ht hi]
  obtain ⟨-, ⟨hM, -⟩, -⟩ := hr
  exact congrArg w16 (dot_congr (fun k hk => congrArg s16 (hc k hk)) fun k hk =>
    congrArg s16 (getD_history_block (windowIndexD_lt hM hi hk)).symm)

/-- R165: whole groups of M first, and the rest from the history they leave, is the same stream. -/
theorem decimatedStream_append {d : Descriptor} (hM : 1 ≤ d.factor.toNat) (c : Nat → Sample)
    {h x : List Sample} (hh : h.length = historyD d) (hx : d.factor.toNat ∣ x.length) (y : List Sample) :
    decimatedStream d c h (x ++ y) =
      decimatedStream d c h x ++ decimatedStream d c ((h ++ x).drop x.length) y := by
  obtain ⟨m, hm⟩ := hx
  have hfirst : x.length / d.factor.toNat = m := by rw [hm, Nat.mul_div_cancel_left _ hM]
  unfold decimatedStream
  rw [List.length_append, Nat.add_div_of_dvd_right ⟨m, hm⟩, List.range_add, List.map_append, List.map_map]
  refine congrArg₂ _ (List.map_congr_left fun i hi => ?_) (List.map_congr_left fun i _ => ?_)
  · have hgroup := mul_add_le_of_lt_div (List.mem_range.mp hi)
    refine congrArg w16 (dot_congr (fun _ _ => rfl) fun k hk => congrArg s16 ?_)
    rw [← List.append_assoc]
    refine List.getD_append _ _ _ _ ?_
    rw [List.length_append, hh, historyD]
    omega
  · refine congrArg w16 (dot_congr (fun _ _ => rfl) fun k hk => congrArg s16 ?_)
    rw [← List.drop_append_of_le_length (by simp), List.append_assoc, List.getD_eq_getElem?_getD,
      List.getD_eq_getElem?_getD, List.getElem?_drop, hfirst]
    congr 2
    rw [Nat.add_mul, hm, Nat.mul_comm m]
    omega

theorem length_historyWordsD (d : Descriptor) (s : State) : (historyWordsD d s).length = historyD d :=
  length_words _ _ s

/-- R165: what a sequence of accepted RUNDs stores, by induction on the runs. -/
theorem rundStreamOut_eq_decimatedStream {d : Descriptor} {c : Nat → Sample} {h h' : List Sample}
    {runs : List (State × State)} (hs : RundStream d h runs h')
    (hc : ∀ r ∈ runs, ∀ k, k < d.taps.toNat → readWord (d.coef.toNat + k) r.1 = c k) :
    rundStreamOut runs = decimatedStream d c h (streamIn runs) := by
  induction runs generalizing h with
  | nil => simp [decimatedStream]
  | cons r runs ih =>
    obtain ⟨s, t⟩ := r
    obtain ⟨rfl, rfl, hr, ht, hrest⟩ := hs
    obtain ⟨hblock, -⟩ := (rejectD_eq_none hr.1).2
    obtain ⟨hhead, htail⟩ := List.forall_mem_cons.mp hc
    rw [rundStreamOut_cons, words_output_of_exec_rund hr ht hhead, ih hrest htail,
      historyWordsD_of_exec_rund hr ht, streamIn_cons,
      decimatedStream_append hr.2.1.1 c (length_historyWordsD _ _)]
    rw [inputBlock, length_words]
    exact Nat.dvd_of_mod_eq_zero hblock

/-- R165: two sequences of accepted RUNDs on one stream from one history. -/
theorem rundStreams_agree {d : Descriptor} {c : Nat → Sample} {h h₁ h₂ : List Sample}
    {runs₁ runs₂ : List (State × State)} (hs₁ : RundStream d h runs₁ h₁) (hs₂ : RundStream d h runs₂ h₂)
    (hc : ∀ r ∈ runs₁ ++ runs₂, ∀ k, k < d.taps.toNat → readWord (d.coef.toNat + k) r.1 = c k)
    (hin : streamIn runs₁ = streamIn runs₂) :
    rundStreamOut runs₁ = rundStreamOut runs₂ ∧ h₁ = h₂ := by
  obtain ⟨hc₁, hc₂⟩ := List.forall_mem_append.mp hc
  rw [rundStreamOut_eq_decimatedStream hs₁ hc₁, rundStreamOut_eq_decimatedStream hs₂ hc₂,
    history_of_rundStream hs₁, history_of_rundStream hs₂, hin]
  exact ⟨rfl, rfl⟩

/-! ## The regions of a stream laid end to end -/

/-- R60: the regions of a RUND of `n` words from `pIn` to `pOut`. -/
def regionsAt (d : Descriptor) (pIn pOut n : Nat) : RunRegions where
  coef := ⟨d.coef.toNat, d.taps.toNat⟩
  state := ⟨d.state.toNat, historyD d + n⟩
  input := ⟨pIn, n⟩
  output := ⟨pOut, n / d.factor.toNat⟩

theorem regionsD_eq_regionsAt (s : State) :
    regionsD s = regionsAt s.descD (inputBase s) (outputBase s) (blockSize s) := rfl

theorem Region.disjoint.mono {r r' q q' : Region} (h : r.disjoint q) (hr : ∀ a, r'.Has a → r.Has a)
    (hq : ∀ a, q'.Has a → q.Has a) : r'.disjoint q' :=
  (Region.disjoint_iff _ _).mpr fun a ha ha' =>
    (Region.disjoint_iff _ _).mp h a (hr a ha) (hq a ha')

theorem Region.Has.of_le {base n m a : Nat} (h : Region.Has ⟨base, n⟩ a) (hnm : n ≤ m) :
    Region.Has ⟨base, m⟩ a :=
  ⟨h.1, h.2.trans_le (Nat.add_le_add_left hnm _)⟩

theorem Region.Has.of_rest {base b n a : Nat} (h : Region.Has ⟨base + b, n⟩ a) :
    Region.Has ⟨base, b + n⟩ a := by
  simp only [Region.Has] at *
  omega

/-- The regions of the rest of a stream lie inside those of the whole, so they are disjoint too. -/
theorem pairwiseDisjoint_rest {d : Descriptor} {pIn pOut b n : Nat} (hb : d.factor.toNat ∣ b)
    (h : (regionsAt d pIn pOut (b + n)).pairwiseDisjoint) :
    (regionsAt d (pIn + b) (pOut + b / d.factor.toNat) n).pairwiseDisjoint := by
  obtain ⟨hcs, hci, hco, hsi, hso, hio⟩ := h
  simp only [regionsAt, Nat.add_div_of_dvd_right hb] at *
  have hstate (a : Nat) (ha : Region.Has ⟨d.state.toNat, historyD d + n⟩ a) :
      Region.Has ⟨d.state.toNat, historyD d + (b + n)⟩ a := ha.of_le (by omega)
  exact ⟨hcs.mono (fun _ => id) hstate, hci.mono (fun _ => id) fun _ => .of_rest,
    hco.mono (fun _ => id) fun _ => .of_rest, hsi.mono hstate fun _ => .of_rest,
    hso.mono hstate fun _ => .of_rest, hio.mono (fun _ => .of_rest) fun _ => .of_rest⟩

/-! ## A stream laid end to end -/

/-- `feedRund` goes on after a block exactly where its RUND ran. -/
theorem feedRund_cons {b : Nat} {bs : List Nat} {s u : State} (h : feedRund (b :: bs) s = some u) :
    ∃ t, (withBlock b s).runsD ∧ exec .rund (withBlock b s) = .next t ∧
      feedRund bs (advanceBases b (b / s.descD.factor.toNat) t) = some u := by
  unfold feedRund at h
  split at h
  · next t ht =>
    split_ifs at h with hresp
    exact ⟨t, runsD_of_success ht hresp, ht, h⟩
  · cases h
  · cases h

@[simp] theorem readWord_advanceBases (i o : Nat) (s : State) (a : Nat) :
    readWord a (advanceBases i o s) = readWord a s := rfl

/-- The descriptor is `d`, and A0 and A1 are set for `n` words from `pIn` to `pOut`, with disjoint regions.
A base may be 2^32, which A0 and A1 hold as 0, once the stream has ended at the top of the address space. -/
structure FeedReady (d : Descriptor) (pIn pOut n : Nat) (s : State) : Prop where
  desc : s.descD = d
  a0 : s.args.a0 = BitVec.ofNat 32 pIn
  a1 : s.args.a1 = BitVec.ofNat 32 pOut
  in_le : pIn + n ≤ 4294967296
  out_le : pOut + n / d.factor.toNat ≤ 4294967296
  disjoint : (regionsAt d pIn pOut n).pairwiseDisjoint

namespace FeedReady

variable {d : Descriptor} {pIn pOut b n a : Nat} {s t : State}

/-- Acceptance excludes a base of 0, so the bases have not wrapped and the block fits A2. -/
theorem operands (h : FeedReady d pIn pOut (b + n) s) (hr : (withBlock b s).runsD) :
    inputBase (withBlock b s) = pIn ∧ outputBase (withBlock b s) = pOut ∧
      blockSize (withBlock b s) = b := by
  obtain ⟨-, -, -, hin, hout, -⟩ := rejectD_eq_none hr.1
  have hpIn := h.in_le
  have hpOut : pOut ≤ 4294967296 := (Nat.le_add_right _ _).trans h.out_le
  have hinput : inputBase (withBlock b s) = pIn % 4294967296 := congrArg BitVec.toNat h.a0
  have houtput : outputBase (withBlock b s) = pOut % 4294967296 := congrArg BitVec.toNat h.a1
  have hblock : blockSize (withBlock b s) = b % 4294967296 := rfl
  omega

theorem factor_dvd (h : FeedReady d pIn pOut (b + n) s) (hr : (withBlock b s).runsD) :
    d.factor.toNat ∣ b := by
  obtain ⟨-, hmod, -⟩ := rejectD_eq_none hr.1
  obtain ⟨-, -, hblock⟩ := h.operands hr
  rw [hblock] at hmod
  exact h.desc ▸ Nat.dvd_of_mod_eq_zero hmod

theorem outputs (h : FeedReady d pIn pOut (b + n) s) (hr : (withBlock b s).runsD) :
    outputsD (withBlock b s) = b / d.factor.toNat := by
  obtain ⟨-, -, hblock⟩ := h.operands hr
  rw [outputsD, hblock, ← h.desc]
  rfl

/-- After a block the rest of the stream is set. -/
theorem rest (h : FeedReady d pIn pOut (b + n) s) (hr : (withBlock b s).runsD)
    (ht : exec .rund (withBlock b s) = .next t) :
    FeedReady d (pIn + b) (pOut + b / d.factor.toNat) n (advanceBases b (b / d.factor.toNat) t) := by
  obtain ⟨hargs, -, hdesc, -⟩ := rundFrame _ _ ht
  have hdvd := h.factor_dvd hr
  have hpIn := h.in_le
  have hpOut := h.out_le
  rw [Nat.add_div_of_dvd_right hdvd] at hpOut
  refine ⟨hdesc.trans h.desc, ?_, ?_, by omega, by omega, pairwiseDisjoint_rest hdvd h.disjoint⟩
  · simp only [advanceBases, State.setArgs_args, hargs, BitVec.ofNat_add, ← h.a0]
    rfl
  · simp only [advanceBases, State.setArgs_args, hargs, BitVec.ofNat_add, ← h.a1]
    rfl

/-- A block changes no word outside STATE and OUT of the whole stream. -/
theorem readWord_block (h : FeedReady d pIn pOut (b + n) s) (hr : (withBlock b s).runsD)
    (ht : exec .rund (withBlock b s) = .next t)
    (hst : ¬ (regionsAt d pIn pOut (b + n)).state.Has a)
    (hout : ¬ (regionsAt d pIn pOut (b + n)).output.Has a) : readWord a t = readWord a s := by
  obtain ⟨-, -, -, -, -, -, -, -, -, hframe⟩ := rundFrame _ _ ht
  obtain ⟨-, hbase, hblock⟩ := h.operands hr
  rw [hblock, hbase, h.outputs hr] at hframe
  have hdesc : (withBlock b s).descD = d := h.desc
  rw [hdesc] at hframe
  refine hframe a (fun ha => hst (Region.Has.of_le ha (by omega))) fun ha => hout ?_
  exact Region.Has.of_le ha (Nat.div_le_div_right (Nat.le_add_right b n))

/-- A stream changes no word outside STATE and OUT. -/
theorem readWord_feedRund {bs : List Nat} (h : FeedReady d pIn pOut bs.sum s)
    (hf : feedRund bs s = some t) (hst : ¬ (regionsAt d pIn pOut bs.sum).state.Has a)
    (hout : ¬ (regionsAt d pIn pOut bs.sum).output.Has a) : readWord a t = readWord a s := by
  induction bs generalizing s pIn pOut with
  | nil =>
    cases hf
    rfl
  | cons b bs ih =>
    obtain ⟨u, hr, hu, hf⟩ := feedRund_cons hf
    rw [List.sum_cons] at h hst hout
    rw [h.desc] at hf
    have hblock : readWord a u = readWord a s := h.readWord_block hr hu hst hout
    rw [← hblock, ← readWord_advanceBases b (b / d.factor.toNat) u a]
    refine ih (h.rest hr hu) hf (fun ha => hst (Region.Has.of_le ha (by omega))) fun ha => hout ?_
    simp only [regionsAt, Nat.add_div_of_dvd_right (h.factor_dvd hr)]
    exact Region.Has.of_rest ha

/-- A block leaves the coefficients in place. -/
theorem readWord_coef_block (h : FeedReady d pIn pOut (b + n) s) (hr : (withBlock b s).runsD)
    (ht : exec .rund (withBlock b s) = .next t) {k : Nat} (hk : k < d.taps.toNat) :
    readWord (d.coef.toNat + k) t = readWord (d.coef.toNat + k) s := by
  obtain ⟨hcs, -, hco, -⟩ := h.disjoint
  have hcoef : (regionsAt d pIn pOut (b + n)).coef.Has (d.coef.toNat + k) :=
    ⟨Nat.le_add_right _ k, Nat.add_lt_add_left hk _⟩
  exact h.readWord_block hr ht ((Region.disjoint_iff _ _).mp hcs _ hcoef)
    ((Region.disjoint_iff _ _).mp hco _ hcoef)

/-- A block leaves the input of the blocks after it. -/
theorem words_input_block (h : FeedReady d pIn pOut (b + n) s) (hr : (withBlock b s).runsD)
    (ht : exec .rund (withBlock b s) = .next t) : words (pIn + b) n t = words (pIn + b) n s := by
  obtain ⟨-, -, -, hsi, -, hio⟩ := h.disjoint
  exact words_congr fun a ha => h.readWord_block hr ht
    (fun hst => (Region.disjoint_iff _ _).mp hsi a hst ha.of_rest)
    ((Region.disjoint_iff _ _).mp hio a ha.of_rest)

/-- The blocks after a block leave its outputs. -/
theorem words_output_feedRund {bs : List Nat} {u : State} (h : FeedReady d pIn pOut (b + bs.sum) s)
    (hr : (withBlock b s).runsD) (ht : exec .rund (withBlock b s) = .next t)
    (hf : feedRund bs (advanceBases b (b / d.factor.toNat) t) = some u) :
    words pOut (b / d.factor.toNat) u = words pOut (b / d.factor.toNat) t := by
  obtain ⟨-, -, -, -, hso, -⟩ := h.disjoint
  refine words_congr fun a ha => (h.rest hr ht).readWord_feedRund hf (fun hst => ?_) fun hlater => ?_
  · exact (Region.disjoint_iff _ _).mp hso a (Region.Has.of_le hst (by omega))
      (ha.of_le (Nat.div_le_div_right (Nat.le_add_right b _)))
  · simp only [regionsAt, Region.Has] at ha hlater
    omega

/-- R165: blocks laid end to end are a sequence of accepted RUNDs on the words of IN, with the coefficients
in place, and at the end OUT holds all they stored. -/
theorem rundStream_of_feedRund {bs : List Nat} (h : FeedReady d pIn pOut bs.sum s)
    (hf : feedRund bs s = some t) :
    ∃ runs, RundStream d (historyWordsD d s) runs (historyWordsD d t) ∧
      (∀ r ∈ runs, ∀ k, k < d.taps.toNat →
        readWord (d.coef.toNat + k) r.1 = readWord (d.coef.toNat + k) s) ∧
      streamIn runs = words pIn bs.sum s ∧
      rundStreamOut runs = words pOut (bs.sum / d.factor.toNat) t := by
  induction bs generalizing s pIn pOut with
  | nil =>
    cases hf
    exact ⟨[], rfl, by simp, by simp [words], by simp [words]⟩
  | cons b bs ih =>
    obtain ⟨u, hr, hu, hf⟩ := feedRund_cons hf
    rw [List.sum_cons] at h ⊢
    rw [h.desc] at hf
    obtain ⟨runs, hs, hc, hin, hout⟩ := ih (h.rest hr hu) hf
    obtain ⟨hpIn, hpOut, hblock⟩ := h.operands hr
    refine ⟨(withBlock b s, u) :: runs, ⟨h.desc, rfl, hr, hu, hs⟩, ?_, ?_, ?_⟩
    · exact List.forall_mem_cons.mpr ⟨fun _ _ => rfl, fun r hmem k hk =>
        (hc r hmem k hk).trans (h.readWord_coef_block hr hu hk)⟩
    · rw [streamIn_cons, hin, inputBlock, hpIn, hblock, words_add, ← h.words_input_block hr hu]
      rfl
    · rw [rundStreamOut_cons, hout, hpOut, h.outputs hr, Nat.add_div_of_dvd_right (h.factor_dvd hr),
        words_add, h.words_output_feedRund hr hu hf]

end FeedReady

/-- A RUND of `n` words that is answered SUCCESS leaves room for its stream to be fed in blocks. -/
theorem feedReady_of_runsD {n : Nat} {s : State} (hwords : s.memWords ≤ 4294967296) (hn : n < 4294967296)
    (hr : (withBlock n s).runsD) : FeedReady s.descD (inputBase s) (outputBase s) n s := by
  have hblock : blockSize (withBlock n s) = n := Nat.mod_eq_of_lt hn
  obtain ⟨hacc, -, hdisj⟩ := hr
  obtain ⟨-, -, -, -, -, hin, hout⟩ := rejectD_eq_none hacc
  rw [outputsD, hblock] at hout
  rw [hblock] at hin
  rw [regionsD_eq_regionsAt, hblock] at hdisj
  exact ⟨rfl, by simp [inputBase], by simp [outputBase], hin.trans hwords,
    hout.trans hwords, hdisj⟩

/-- Settles O41: the stream in blocks and the one RUND over it are both sequences of accepted RUNDs on the
same stream, history and coefficients, whose outputs and final history that determines. -/
theorem rundContinuity : Obligations.RundContinuity := by
  refine ⟨fun s t u bs hwords hsum hu hresp hf => ?_, fun d c h h₁ h₂ runs₁ runs₂ => rundStreams_agree⟩
  have hr := runsD_of_success hu hresp
  have hready := feedReady_of_runsD hwords.2 hsum hr
  obtain ⟨runs, hs, hc, hin, hout⟩ := hready.rundStream_of_feedRund hf
  have hblock : blockSize (withBlock bs.sum s) = bs.sum := Nat.mod_eq_of_lt hsum
  have hwhole : RundStream s.descD (historyWordsD s.descD s) [(withBlock bs.sum s, u)]
      (historyWordsD s.descD u) := ⟨rfl, rfl, hr, hu, rfl⟩
  obtain ⟨houts, hhist⟩ := rundStreams_agree hs hwhole
    (c := fun k => readWord (s.descD.coef.toNat + k) s)
    (List.forall_mem_append.mpr ⟨hc, List.forall_mem_singleton.mpr fun _ _ => rfl⟩)
    (by
      rw [hin, streamIn_cons, streamIn_nil, List.append_nil, inputBlock, hblock]
      rfl)
  rw [hout, rundStreamOut_cons, rundStreamOut_nil, List.append_nil, outputsD, hblock] at houts
  exact ⟨fun i => readWord_eq_of_words_eq houts, fun j => readWord_eq_of_words_eq hhist⟩

end Sys2Proof.Machine
end

section
/-! SUPPORT. The interpolator channel: what INITI commits, when RUNI is accepted, and what it leaves
(spec/43_interpolator.md R183 to R194). -/

namespace Sys2Proof.Machine

/-! ## Initialisation and acceptance -/

/-- Settles O24: the eight conditions are `validI` of the operands. -/
theorem initiCommitsValidOperands : Obligations.InitiCommitsValidOperands :=
  fun _ hfac htaps hmod hcoef hst hblk hcoefEnd hstEnd =>
    execIniti_of_valid ⟨hfac, htaps, hmod, hcoef, hst, hblk, hcoefEnd, hstEnd⟩

/-- Settles O25: the eight conditions are `validI` of the operands. -/
theorem initiFailureCommitsNothing : Obligations.InitiFailureCommitsNothing :=
  fun _ => execIniti_of_invalid

/-- Settles O27: the chain of R188's lines is `rejectI`, which decides between the two answers. -/
theorem runiAcceptance : Obligations.RuniAcceptance := by
  intro s b l rejected
  have hrej : rejected = rejectI s := by
    simp only [rejected, rejectI, Bool.not_eq_true, not_le, not_and_or, ne_eq, not_not]
    rfl
  rw [hrej]
  refine ⟨fun c hc => execRuni_of_reject hc, fun hnone t ht => ?_⟩
  obtain ⟨c, hc, -⟩ | ⟨-, rfl⟩ := execRuni_cases ht
  · simp [hnone] at hc
  · rfl

/-- A RUNI answered SUCCESS was no violation, so it ran. -/
theorem runsI_of_success {s t : State} (h : exec .runi s = .next t) (ht : t.status.resp = .success) :
    s.runsI := by
  obtain ⟨c, -, rfl⟩ | ⟨hr, -⟩ := execRuni_cases h
  · simp at ht
  · exact hr

/-! ## The result of a RUNI -/

/-- Settles O31: the memory is `wordAfterRuni`, and the work changes ACC and MEM alone. -/
theorem runiResult : Obligations.RuniResult := fun s hr =>
  ⟨respond .success (runInterpolator s), execRuni_of_runsI hr, readWord_runInterpolator hr, by
    rw [onlyAccMem_runInterpolator s]
    rfl⟩

/-- Settles O35: a rejected RUNI changes STATUS alone; an accepted one changes ACC and MEM, and in MEM the
words of STATE and OUT. -/
theorem runiFrame : Obligations.RuniFrame := by
  intro s t h
  obtain ⟨c, -, rfl⟩ | ⟨hr, rfl⟩ := execRuni_cases h
  · exact ⟨rfl, rfl, rfl, rfl, rfl, rfl, rfl, rfl, rfl, fun _ _ _ => rfl⟩
  · obtain ⟨hargs, hcmd, hstatus, hdescD, hdescI, hwords, hevents, hreturned⟩ :=
      (onlyAccMem_runInterpolator s).fields
    refine ⟨hargs, hcmd, hdescD, hdescI, (congrArg Status.liveD hstatus :),
      (congrArg Status.liveI hstatus :), hwords, hevents, hreturned, fun a hst hout => ?_⟩
    rw [readWord_respond, readWord_runInterpolator hr]
    exact wordAfterRun_of_outside _ _ s hst hout

/-- R190: output `m` of an accepted RUNI, as a word: phase `m mod L` at input `m div L`. -/
theorem readWord_output_of_exec_runi {s t : State} (hr : s.runsI) (h : exec .runi s = .next t) {m : Nat}
    (hm : m < outputsI s) :
    readWord (outputBase s + m) t =
      w16 (interpolatedSample s (m / s.descI.factor.toNat) (m % s.descI.factor.toNat)) := by
  rw [readWord_of_exec_runi hr h]
  obtain ⟨-, -, -, -, -, -, hout, -⟩ := hr
  exact wordAfterRun_output _ _ s hout hm

/-- R190: output `m` of an accepted RUNI, as an integer. -/
theorem memRead_output_of_exec_runi {s t : State} (hr : s.runsI) (h : exec .runi s = .next t) {m : Nat}
    (hm : m < outputsI s) :
    memRead (outputBase s + m) t =
      interpolatedSample s (m / s.descI.factor.toNat) (m % s.descI.factor.toNat) := by
  rw [memRead, readWord_output_of_exec_runi hr h hm, interpolatedSample, s16_w16_dot]

/-- R192: the output index `n*L + p` is one of the `B*L`, and gives back its input and its phase. -/
theorem phaseIndex_lt_div_mod {n b p l : Nat} (hn : n < b) (hp : p < l) :
    n * l + p < b * l ∧ (n * l + p) / l = n ∧ (n * l + p) % l = p := by
  have hl : 0 < l := Nat.zero_lt_of_lt hp
  have hlt : (n + 1) * l ≤ b * l := Nat.mul_le_mul_right l hn
  rw [Nat.succ_mul] at hlt
  exact ⟨by omega, (Nat.div_mod_unique hl).mpr ⟨by rw [Nat.mul_comm, Nat.add_comm], hp⟩⟩

/-- Settles O33: the output word is `interpolatedSample`, the sum over the window. -/
theorem runiOutputs : Obligations.RuniOutputs := by
  intro s t hr ht taps n p hn hp w
  have hw : (fun j => s16 (windowI s j)) = w := funext (s16_windowWord _ _ _ s)
  obtain ⟨hm, hdiv, hmod⟩ := phaseIndex_lt_div_mod hn hp
  have hout := memRead_output_of_exec_runi hr ht hm
  rw [hdiv, hmod] at hout
  rw [← hw]
  exact hout

/-! ## The zero-stuffed convolution -/

/-- A sum over `n*l` indices whose terms are 0 off the residue `p` is the sum over that residue. -/
theorem sum_range_mul_of_residue {l p : Nat} (hp : p < l) (n : Nat) {f : Nat → Int}
    (hf : ∀ k, k % l ≠ p → f k = 0) :
    ∑ k ∈ Finset.range (n * l), f k = ∑ j ∈ Finset.range n, f (p + j * l) := by
  have hl : 0 < l := Nat.zero_lt_of_lt hp
  refine (Finset.sum_of_injOn (fun j => p + j * l) ?_ ?_ ?_ fun _ _ => rfl).symm
  · intro i _ j _ hij
    exact Nat.eq_of_mul_eq_mul_right hl (Nat.add_left_cancel hij)
  · intro j hj
    obtain ⟨hlt, -⟩ := phaseIndex_lt_div_mod (Finset.mem_range.mp hj) hp
    rw [Nat.add_comm] at hlt
    exact Finset.mem_coe.mpr (Finset.mem_range.mpr hlt)
  · intro k hk hnot
    refine hf k fun hmod => hnot ⟨k / l, ?_, ?_⟩
    · exact Finset.mem_coe.mpr (Finset.mem_range.mpr
        (Nat.div_lt_of_lt_mul (by rw [Nat.mul_comm]; exact Finset.mem_range.mp hk)))
    · rw [← hmod]
      exact Nat.mod_add_div' k l

/-- R191: at output index `q*l + p` only the taps of phase `p` meet a sample of the stuffed stream, its tap
`j` the sample `q - j`. -/
theorem stuffedConvolution_eq_phase {l p : Nat} (hp : p < l) (n : Nat) (c z : Nat → Int) (q : Nat) :
    stuffedConvolution (n * l) l c z (q * l + p) =
      ∑ j ∈ Finset.range n, c (p + j * l) * if j ≤ q then z (q - j) else 0 := by
  have hl : 0 < l := Nat.zero_lt_of_lt hp
  rw [stuffedConvolution, sum_range_mul_of_residue hp]
  · refine Finset.sum_congr rfl fun j _ => congrArg _ ?_
    have hle : p + j * l ≤ q * l + p ↔ j ≤ q := by
      rw [Nat.add_comm, Nat.add_le_add_iff_right, Nat.mul_le_mul_right_iff hl]
    have hsub : q * l + p - (p + j * l) = (q - j) * l := by
      rw [Nat.sub_mul]
      omega
    refine if_congr hle ?_ rfl
    rw [hsub, stuffed, if_pos (Nat.mul_mod_left _ l), Nat.mul_div_cancel _ hl]
  · intro k hk
    rw [ite_eq_right_iff.mpr, mul_zero]
    intro hkm
    refine if_neg fun hzero => hk ?_
    have hmod : k % l = (q * l + p) % l :=
      (Nat.modEq_iff_dvd' hkm).mpr (Nat.dvd_of_mod_eq_zero hzero)
    rw [hmod, Nat.mul_add_mod', Nat.mod_eq_of_lt hp]

/-- R190: a RUNI from a zero history: tap `j` at input `n` meets sample `n - j` of the block, and 0 before
its start. -/
theorem s16_windowI_of_zero_history {s : State}
    (hzero : ∀ j, j < historyI s.descI → readWord (s.descI.state.toNat + j) s = 0) (n : Nat) {j : Nat}
    (hj : j < subTaps s.descI) :
    s16 (windowI s (n + subTaps s.descI - 1 - j)) =
      if j ≤ n then memRead (inputBase s + (n - j)) s else 0 := by
  rw [windowI, s16_windowWord]
  by_cases hjn : j ≤ n
  · rw [if_neg (by unfold historyI; omega), if_pos hjn]
    congr 2
    unfold historyI
    omega
  · have hhist : n + subTaps s.descI - 1 - j < historyI s.descI := by
      unfold historyI; omega
    rw [if_pos hhist, if_neg hjn, memRead, hzero _ hhist]
    rfl

/-- R13: a valid descriptor has P taps in each of L phases. -/
theorem subTaps_mul_factor {n : Nat} {d : Descriptor} (hv : validI n d) :
    subTaps d * d.factor.toNat = d.taps.toNat := by
  obtain ⟨-, -, hmod, -⟩ := hv
  exact Nat.div_mul_cancel (Nat.dvd_of_mod_eq_zero hmod)

/-- Settles O43: the zeros of the stuffed stream leave of the convolution the taps of one phase, which meet
the samples of the window. -/
theorem runiIsZeroStuffedConvolution : Obligations.RuniIsZeroStuffedConvolution := by
  intro s t hr ht hzero m hm
  rw [memRead_output_of_exec_runi hr ht hm]
  obtain ⟨-, hv, -⟩ := hr
  have hphase : m % s.descI.factor.toNat < s.descI.factor.toNat := Nat.mod_lt m hv.1
  conv_rhs => rw [← subTaps_mul_factor hv, ← Nat.div_add_mod' m s.descI.factor.toNat]
  rw [stuffedConvolution_eq_phase hphase]
  exact dot_congr (fun _ _ => rfl) fun j hj => s16_windowI_of_zero_history hzero _ hj

/-! ## Factor 1 -/

/-- R194: with factor 1 there is one phase, whose sub-filter is the whole filter, so the output loops of the
two channels are the same. -/
theorem interpolate_of_factor_one {d : Descriptor} (hd : d.factor = 1) (pOut b : Nat) (s : State) :
    interpolate d pOut b s = decimate d pOut b s := by
  have hone : d.factor.toNat = 1 := congrArg BitVec.toNat hd
  have hsub : subTaps d = d.taps.toNat := by rw [subTaps, hone, Nat.div_one]
  simp only [interpolate, decimate, hone, hsub, forUpTo, Nat.mul_one, Nat.add_zero]

theorem runInterpolator_of_factor_one {s : State} (hdesc : s.descD = s.descI) (hI : s.descI.factor = 1) :
    runInterpolator s = runDecimator s := by
  have hone : s.descI.factor.toNat = 1 := congrArg BitVec.toNat hI
  have hhist : historyI s.descI = historyD s.descI := by
    rw [historyI, historyD, subTaps, hone, Nat.div_one]
  have hout : outputsD s = blockSize s := by rw [outputsD, hdesc, hone, Nat.div_one]
  rw [runInterpolator, runDecimator, interpolate_of_factor_one hI, hhist, hout, hdesc]

/-- Settles O45: the two commands do the same work, loop for loop. -/
theorem unityFactorChannelsAgree : Obligations.UnityFactorChannelsAgree := by
  intro s t u hdesc hone hrD hrI ht hu
  rw [eq_of_exec_rund hrD ht, eq_of_exec_runi hrI hu, runInterpolator_of_factor_one hdesc hone]
  exact ⟨rfl, rfl⟩

end Sys2Proof.Machine
end

section
/-! SUPPORT. A stream through RUNI in blocks: what accepted RUNIs store is a function of the history, the
coefficients and the stream alone, and two pieces of a stream laid end to end are one piece
(spec/43_interpolator.md R195). -/

namespace Sys2Proof.Machine

/-! ## The interpolated stream -/

/-- R190 on a stream: the outputs from history `h` and input `z` with coefficients `c`, output `m` of phase
`m mod L` from the words of the history followed by the input that end at `m div L + P - 1`. -/
def interpolatedStream (d : Descriptor) (c : Nat → Sample) (h z : List Sample) : List Sample :=
  (List.range (z.length * d.factor.toNat)).map fun m =>
    w16 (dot (subTaps d) (fun j => s16 (c (m % d.factor.toNat + j * d.factor.toNat)))
      fun j => s16 ((h ++ z).getD (m / d.factor.toNat + subTaps d - 1 - j) 0))

theorem length_historyWordsI (d : Descriptor) (s : State) : (historyWordsI d s).length = historyI d :=
  length_words _ _ s

/-- R130: the window is the history followed by the input block. -/
theorem getD_historyI_block {s : State} {j : Nat} (hj : j < historyI s.descI + blockSize s) :
    (historyWordsI s.descI s ++ inputBlock s).getD j 0 = windowI s j := by
  rw [historyWordsI, inputBlock, ← map_windowWord, List.getD_eq_getElem?_getD, List.getElem?_map,
    List.getElem?_range hj]
  rfl

/-- R190: an accepted RUNI stores the interpolated stream of its block. -/
theorem words_output_of_exec_runi {s t : State} {c : Nat → Sample} (hr : s.runsI)
    (ht : exec .runi s = .next t)
    (hc : ∀ k, k < s.descI.taps.toNat → readWord (s.descI.coef.toNat + k) s = c k) :
    words (outputBase s) (outputsI s) t =
      interpolatedStream s.descI c (historyWordsI s.descI s) (inputBlock s) := by
  unfold interpolatedStream
  rw [inputBlock, length_words]
  refine List.map_congr_left fun m hm => ?_
  have hm : m < outputsI s := List.mem_range.mp hm
  rw [readWord_output_of_exec_runi hr ht hm]
  obtain ⟨-, ⟨hL, -⟩, -⟩ := hr
  exact congrArg w16 (dot_congr (fun j hj => congrArg s16 (hc _ (phaseTap_lt (Nat.mod_lt m hL) hj)))
    fun j hj => congrArg s16 (getD_historyI_block (windowIndexI_lt (outputInput_lt hm) hj)).symm)

/-- R195: the first words of a stream, and the rest from the history they leave, are the same stream. -/
theorem interpolatedStream_append {d : Descriptor} (hL : 1 ≤ d.factor.toNat) (c : Nat → Sample)
    {h x : List Sample} (hh : h.length = historyI d) (y : List Sample) :
    interpolatedStream d c h (x ++ y) =
      interpolatedStream d c h x ++ interpolatedStream d c ((h ++ x).drop x.length) y := by
  unfold interpolatedStream
  rw [List.length_append, Nat.add_mul, List.range_add, List.map_append, List.map_map]
  refine congrArg₂ _ (List.map_congr_left fun m hm => ?_) (List.map_congr_left fun m _ => ?_)
  · have hinput : m / d.factor.toNat < x.length :=
      Nat.div_lt_of_lt_mul (by rw [Nat.mul_comm]; exact List.mem_range.mp hm)
    refine congrArg w16 (dot_congr (fun _ _ => rfl) fun j hj => congrArg s16 ?_)
    rw [← List.append_assoc]
    refine List.getD_append _ _ _ _ ?_
    rw [List.length_append, hh]
    exact windowIndexI_lt hinput hj
  · have hdiv : (x.length * d.factor.toNat + m) / d.factor.toNat = x.length + m / d.factor.toNat := by
      rw [Nat.mul_comm, Nat.mul_add_div hL]
    refine congrArg w16 (dot_congr (fun j _ => ?_) fun j hj => congrArg s16 ?_)
    · simp only [Nat.mul_add_mod']
    · rw [← List.drop_append_of_le_length (by simp), List.append_assoc, List.getD_eq_getElem?_getD,
        List.getD_eq_getElem?_getD, List.getElem?_drop, hdiv]
      congr 2
      generalize m / d.factor.toNat = n
      omega

/-- R195: what a sequence of accepted RUNIs stores, by induction on the runs. -/
theorem runiStreamOut_eq_interpolatedStream {d : Descriptor} {c : Nat → Sample} {h h' : List Sample}
    {runs : List (State × State)} (hs : RuniStream d h runs h')
    (hc : ∀ r ∈ runs, ∀ k, k < d.taps.toNat → readWord (d.coef.toNat + k) r.1 = c k) :
    runiStreamOut runs = interpolatedStream d c h (streamIn runs) := by
  induction runs generalizing h with
  | nil => simp [interpolatedStream]
  | cons r runs ih =>
    obtain ⟨s, t⟩ := r
    obtain ⟨rfl, rfl, hr, ht, hrest⟩ := hs
    obtain ⟨hhead, htail⟩ := List.forall_mem_cons.mp hc
    rw [runiStreamOut_cons, words_output_of_exec_runi hr ht hhead, ih hrest htail,
      historyWordsI_of_exec_runi hr ht, streamIn_cons,
      interpolatedStream_append hr.2.1.1 c (length_historyWordsI _ _)]

/-- R195: two sequences of accepted RUNIs on one stream from one history. -/
theorem runiStreams_agree {d : Descriptor} {c : Nat → Sample} {h h₁ h₂ : List Sample}
    {runs₁ runs₂ : List (State × State)} (hs₁ : RuniStream d h runs₁ h₁) (hs₂ : RuniStream d h runs₂ h₂)
    (hc : ∀ r ∈ runs₁ ++ runs₂, ∀ k, k < d.taps.toNat → readWord (d.coef.toNat + k) r.1 = c k)
    (hin : streamIn runs₁ = streamIn runs₂) :
    runiStreamOut runs₁ = runiStreamOut runs₂ ∧ h₁ = h₂ := by
  obtain ⟨hc₁, hc₂⟩ := List.forall_mem_append.mp hc
  rw [runiStreamOut_eq_interpolatedStream hs₁ hc₁, runiStreamOut_eq_interpolatedStream hs₂ hc₂,
    history_of_runiStream hs₁, history_of_runiStream hs₂, hin]
  exact ⟨rfl, rfl⟩

/-! ## Pieces of a stream in one memory -/

/-- R60: the regions of a RUNI of `n` words from `pIn` to `pOut`. -/
def interpolatorRegions (d : Descriptor) (pIn pOut n : Nat) : RunRegions where
  coef := ⟨d.coef.toNat, d.taps.toNat⟩
  state := ⟨d.state.toNat, historyI d + n⟩
  input := ⟨pIn, n⟩
  output := ⟨pOut, n * d.factor.toNat⟩

theorem regionsI_eq_interpolatorRegions (s : State) :
    regionsI s = interpolatorRegions s.descI (inputBase s) (outputBase s) (blockSize s) := rfl

/-- From `s` to `t` the `n` words from `pIn` on went through the interpolator, whatever the blocks: the
interpolated stream stands from `pOut` on, the history is the end of the stream, and no word outside STATE and
OUT changed. -/
structure Interpolates (d : Descriptor) (pIn pOut n : Nat) (s t : State) : Prop where
  output : ∀ c : Nat → Sample, (∀ k, k < d.taps.toNat → readWord (d.coef.toNat + k) s = c k) →
    words pOut (n * d.factor.toNat) t = interpolatedStream d c (historyWordsI d s) (words pIn n s)
  history : historyWordsI d t =
    (historyWordsI d s ++ words pIn n s).drop (words pIn n s).length
  frame : ∀ a, ¬ (interpolatorRegions d pIn pOut n).state.Has a →
    ¬ (interpolatorRegions d pIn pOut n).output.Has a → readWord a t = readWord a s

theorem interpolates_of_exec_runi {s t : State} (hr : s.runsI) (ht : exec .runi s = .next t) :
    Interpolates s.descI (inputBase s) (outputBase s) (blockSize s) s t where
  output _ hc := words_output_of_exec_runi hr ht hc
  history := historyWordsI_of_exec_runi hr ht
  frame := by
    obtain ⟨-, -, -, -, -, -, -, -, -, hframe⟩ := runiFrame s t ht
    exact hframe

namespace Interpolates

variable {d : Descriptor} {pIn pOut b n : Nat} {s t u : State}

theorem nothing : Interpolates d pIn pOut 0 s s where
  output _ _ := by simp [words, interpolatedStream]
  history := by simp [words]
  frame _ _ _ := rfl

/-- R195: two pieces laid end to end are one piece: the first leaves the coefficients and the input of the
second, and the second leaves the outputs of the first. -/
theorem trans (hL : 1 ≤ d.factor.toNat)
    (hdisj : (interpolatorRegions d pIn pOut (b + n)).pairwiseDisjoint)
    (h₁ : Interpolates d pIn pOut b s t)
    (h₂ : Interpolates d (pIn + b) (pOut + b * d.factor.toNat) n t u) :
    Interpolates d pIn pOut (b + n) s u := by
  obtain ⟨hcs, -, hco, hsi, hso, hio⟩ := hdisj
  simp only [interpolatorRegions, Nat.add_mul] at hcs hco hsi hso hio
  have hstate₁ {a : Nat} (ha : Region.Has ⟨d.state.toNat, historyI d + b⟩ a) :
      Region.Has ⟨d.state.toNat, historyI d + (b + n)⟩ a := ha.of_le (by omega)
  have hstate₂ {a : Nat} (ha : Region.Has ⟨d.state.toNat, historyI d + n⟩ a) :
      Region.Has ⟨d.state.toNat, historyI d + (b + n)⟩ a := ha.of_le (by omega)
  have hout₁ {a : Nat} (ha : Region.Has ⟨pOut, b * d.factor.toNat⟩ a) :
      Region.Has ⟨pOut, b * d.factor.toNat + n * d.factor.toNat⟩ a := ha.of_le (by omega)
  have hframe {a : Nat} (hs : ¬ Region.Has ⟨d.state.toNat, historyI d + (b + n)⟩ a)
      (ho : ¬ Region.Has ⟨pOut, b * d.factor.toNat + n * d.factor.toNat⟩ a) :
      readWord a t = readWord a s := h₁.frame a (fun ha => hs (hstate₁ ha)) fun ha => ho (hout₁ ha)
  have hinput : words (pIn + b) n t = words (pIn + b) n s := words_congr fun a ha =>
    hframe (fun hs => (Region.disjoint_iff _ _).mp hsi a hs ha.of_rest)
      ((Region.disjoint_iff _ _).mp hio a ha.of_rest)
  have houtput : words pOut (b * d.factor.toNat) u = words pOut (b * d.factor.toNat) t :=
    words_congr fun a ha => h₂.frame a
      (fun hs => (Region.disjoint_iff _ _).mp hso a (hstate₂ hs) (hout₁ ha)) fun ho => by
        simp only [interpolatorRegions, Region.Has] at ha ho
        omega
  refine ⟨fun c hc => ?_, ?_, fun a hs ho => ?_⟩
  · have hct (k : Nat) (hk : k < d.taps.toNat) : readWord (d.coef.toNat + k) t = c k := by
      have hcoef : Region.Has ⟨d.coef.toNat, d.taps.toNat⟩ (d.coef.toNat + k) :=
        ⟨Nat.le_add_right _ k, Nat.add_lt_add_left hk _⟩
      rw [hframe ((Region.disjoint_iff _ _).mp hcs _ hcoef) ((Region.disjoint_iff _ _).mp hco _ hcoef),
        hc k hk]
    rw [Nat.add_mul, words_add, words_add, houtput, h₁.output c hc, h₂.output c hct, h₁.history, hinput,
      interpolatedStream_append hL c (length_historyWordsI d s)]
  · rw [h₂.history, h₁.history, hinput, drop_drop_append, ← words_add]
  · simp only [interpolatorRegions, Nat.add_mul] at hs ho
    rw [h₂.frame a (fun ha => hs (hstate₂ ha)) fun ha => ho ha.of_rest, hframe hs ho]

/-- Two ways of putting the same words through the interpolator store the same outputs and history. -/
theorem unique (ht : Interpolates d pIn pOut n s t) (hu : Interpolates d pIn pOut n s u) :
    words pOut (n * d.factor.toNat) t = words pOut (n * d.factor.toNat) u ∧
      historyWordsI d t = historyWordsI d u :=
  ⟨(ht.output _ fun _ _ => rfl).trans (hu.output _ fun _ _ => rfl).symm, ht.history.trans hu.history.symm⟩

end Interpolates

/-! ## A stream laid end to end -/

/-- `feedRuni` goes on after a block exactly where its RUNI ran. -/
theorem feedRuni_cons {b : Nat} {bs : List Nat} {s u : State} (h : feedRuni (b :: bs) s = some u) :
    ∃ t, (withBlock b s).runsI ∧ exec .runi (withBlock b s) = .next t ∧
      feedRuni bs (advanceBases b (b * s.descI.factor.toNat) t) = some u := by
  unfold feedRuni at h
  split at h
  · next t ht =>
    split_ifs at h with hresp
    exact ⟨t, runsI_of_success ht hresp, ht, h⟩
  · cases h
  · cases h

/-- The descriptor is `d`, and A0 and A1 are set for `n` words from `pIn` to `pOut`, with disjoint regions.
A base may be 2^32, which A0 and A1 hold as 0, once the stream has ended at the top of the address space. -/
structure RuniReady (d : Descriptor) (pIn pOut n : Nat) (s : State) : Prop where
  desc : s.descI = d
  a0 : s.args.a0 = BitVec.ofNat 32 pIn
  a1 : s.args.a1 = BitVec.ofNat 32 pOut
  in_le : pIn + n ≤ 4294967296
  out_le : pOut + n * d.factor.toNat ≤ 4294967296
  disjoint : (interpolatorRegions d pIn pOut n).pairwiseDisjoint

namespace RuniReady

variable {d : Descriptor} {pIn pOut b n : Nat} {s t : State}

/-- Acceptance excludes a base of 0, so the bases have not wrapped and the block fits A2. -/
theorem operands (h : RuniReady d pIn pOut (b + n) s) (hr : (withBlock b s).runsI) :
    inputBase (withBlock b s) = pIn ∧ outputBase (withBlock b s) = pOut ∧
      blockSize (withBlock b s) = b := by
  obtain ⟨-, -, hin, hout, -⟩ := rejectI_eq_none hr.1
  have hpIn := h.in_le
  have hpOut : pOut ≤ 4294967296 := (Nat.le_add_right _ _).trans h.out_le
  have hinput : inputBase (withBlock b s) = pIn % 4294967296 := congrArg BitVec.toNat h.a0
  have houtput : outputBase (withBlock b s) = pOut % 4294967296 := congrArg BitVec.toNat h.a1
  have hblock : blockSize (withBlock b s) = b % 4294967296 := rfl
  omega

theorem interpolates_block (h : RuniReady d pIn pOut (b + n) s) (hr : (withBlock b s).runsI)
    (ht : exec .runi (withBlock b s) = .next t) : Interpolates d pIn pOut b s t := by
  obtain ⟨hin, hout, hblock⟩ := h.operands hr
  have hpiece := interpolates_of_exec_runi hr ht
  have hdesc : (withBlock b s).descI = d := h.desc
  rw [hin, hout, hblock, hdesc] at hpiece
  exact ⟨hpiece.output, hpiece.history, hpiece.frame⟩

/-- The regions of the rest of a stream lie inside those of the whole, so they are disjoint too. -/
theorem disjoint_rest (h : RuniReady d pIn pOut (b + n) s) :
    (interpolatorRegions d (pIn + b) (pOut + b * d.factor.toNat) n).pairwiseDisjoint := by
  obtain ⟨hcs, hci, hco, hsi, hso, hio⟩ := h.disjoint
  simp only [interpolatorRegions, Nat.add_mul] at *
  have hstate (a : Nat) (ha : Region.Has ⟨d.state.toNat, historyI d + n⟩ a) :
      Region.Has ⟨d.state.toNat, historyI d + (b + n)⟩ a := ha.of_le (by omega)
  exact ⟨hcs.mono (fun _ => id) hstate, hci.mono (fun _ => id) fun _ => .of_rest,
    hco.mono (fun _ => id) fun _ => .of_rest, hsi.mono hstate fun _ => .of_rest,
    hso.mono hstate fun _ => .of_rest, hio.mono (fun _ => .of_rest) fun _ => .of_rest⟩

/-- After a block the rest of the stream is set. -/
theorem rest (h : RuniReady d pIn pOut (b + n) s) (ht : exec .runi (withBlock b s) = .next t) :
    RuniReady d (pIn + b) (pOut + b * d.factor.toNat) n (advanceBases b (b * d.factor.toNat) t) := by
  obtain ⟨hargs, -, -, hdesc, -⟩ := runiFrame _ _ ht
  have hpIn := h.in_le
  have hpOut := h.out_le
  rw [Nat.add_mul] at hpOut
  refine ⟨hdesc.trans h.desc, ?_, ?_, by omega, by omega, h.disjoint_rest⟩
  · simp only [advanceBases, State.setArgs_args, hargs, BitVec.ofNat_add, ← h.a0]
    rfl
  · simp only [advanceBases, State.setArgs_args, hargs, BitVec.ofNat_add, ← h.a1]
    rfl

/-- R195: a stream in blocks is one piece, by induction on the blocks. -/
theorem interpolates_feed {bs : List Nat} (h : RuniReady d pIn pOut bs.sum s)
    (hf : feedRuni bs s = some t) : Interpolates d pIn pOut bs.sum s t := by
  induction bs generalizing s pIn pOut with
  | nil =>
    cases hf
    exact .nothing
  | cons b bs ih =>
    obtain ⟨u, hr, hu, hf⟩ := feedRuni_cons hf
    rw [List.sum_cons] at h ⊢
    rw [h.desc] at hf
    have hrest := ih (h.rest hu) hf
    have hL : 1 ≤ d.factor.toNat := h.desc ▸ hr.2.1.1
    exact (h.interpolates_block hr hu).trans hL h.disjoint
      ⟨hrest.output, hrest.history, hrest.frame⟩

end RuniReady

/-- A RUNI of `n` words that is answered SUCCESS leaves room for its stream to be fed in blocks. -/
theorem runiReady_of_runsI {n : Nat} {s : State} (hwords : s.memWords ≤ 4294967296) (hn : n < 4294967296)
    (hr : (withBlock n s).runsI) : RuniReady s.descI (inputBase s) (outputBase s) n s := by
  have hblock : blockSize (withBlock n s) = n := Nat.mod_eq_of_lt hn
  obtain ⟨hacc, -, hdisj⟩ := hr
  obtain ⟨-, -, -, -, hin, hout⟩ := rejectI_eq_none hacc
  rw [outputsI, hblock] at hout
  rw [hblock] at hin
  rw [regionsI_eq_interpolatorRegions, hblock] at hdisj
  exact ⟨rfl, by simp [inputBase], by simp [outputBase], hin.trans hwords, hout.trans hwords, hdisj⟩

/-- Settles O42: the blocks and the one RUNI over their sum put the same words through the interpolator, which
determines the outputs and the history; and so does a stream, however its blocks are placed. -/
theorem runiContinuity : Obligations.RuniContinuity := by
  refine ⟨fun s t u bs hwords hsum hu hresp hf => ?_, fun d c h h₁ h₂ runs₁ runs₂ => runiStreams_agree⟩
  have hr := runsI_of_success hu hresp
  have hready := runiReady_of_runsI hwords.2 hsum hr
  have hwhole : Interpolates s.descI (inputBase s) (outputBase s) bs.sum s u :=
    RuniReady.interpolates_block (n := 0) hready hr hu
  obtain ⟨houts, hhist⟩ := (hready.interpolates_feed hf).unique hwhole
  exact ⟨fun i => readWord_eq_of_words_eq houts, fun j => readWord_eq_of_words_eq hhist⟩

end Sys2Proof.Machine
end

section
/-! SUPPORT. The host interface: which register an offset names, and what each host transaction does
(spec/44_host_interface.md R210 to R217). -/

namespace Sys2Proof.Machine

/-! ## Register offsets -/

@[simp] theorem regAt_regOffset (r : Reg) : regAt (regOffset r) = some r := by cases r <;> rfl

/-- R80: an offset names a register by exact equality with that register's offset. -/
theorem regAt_eq_some_iff {off : Word} {r : Reg} : regAt off = some r ↔ off = regOffset r := by
  refine ⟨fun h => ?_, fun h => h ▸ regAt_regOffset r⟩
  unfold regAt at h
  split at h
  all_goals cases h
  all_goals exact BitVec.eq_of_toNat_eq ‹_›

/-- R80, R214: an offset is a register's or is reserved. -/
theorem regOffset_or_reserved (off : Word) : (∃ r, off = regOffset r) ∨ regAt off = none := by
  cases h : regAt off with
  | none => exact .inr rfl
  | some r => exact .inl ⟨r, regAt_eq_some_iff.mp h⟩

/-- An offset that names no register differs from each that does. -/
theorem ne_of_reserved {off off' : Word} (h : regAt off = none) (h' : (regAt off').isSome = true) :
    off ≠ off' := by
  rintro rfl
  rw [h] at h'
  cases h'

/-- R214: the offsets that are not a multiple of 4, the gaps of the map and all from 0x54 on are reserved. -/
theorem regAt_eq_none_of_reserved {off : Word}
    (h : off.toNat % 4 ≠ 0 ∨ off = 0x1C#32 ∨ off = 0x34#32 ∨ off = 0x38#32 ∨ off = 0x3C#32 ∨
      0x54 ≤ off.toNat) : regAt off = none := by
  obtain ⟨r, rfl⟩ | hres := regOffset_or_reserved off
  · revert h
    cases r <;> decide
  · exact hres

/-! ## Register accesses -/

theorem readRegister_regOffset (r : Reg) (s : State) : readRegister (regOffset r) s = regValue s r := by
  rw [readRegister, regAt_regOffset]

theorem readRegister_of_reserved {off : Word} (h : regAt off = none) (s : State) :
    readRegister off s = 0 := by
  rw [readRegister, h]

theorem hostWriteReg_of_reserved {off : Word} (h : regAt off = none) (d : Word) (s : State) :
    hostWriteReg off d s = .next s := by
  rw [hostWriteReg, h]

/-- Settles O7: each register's offset has its own line of the chain, and a reserved one meets none. -/
theorem registerWriteEffect : Obligations.RegisterWriteEffect := by
  intro off d s
  obtain ⟨r, rfl⟩ | hres := regOffset_or_reserved off
  · cases r <;> rfl
  · rw [hostWriteReg_of_reserved hres]
    simp (disch := decide) only [ne_of_reserved hres, if_false]

/-- Settles O8: each register's offset has its own line of the chain, and a reserved one meets none. -/
theorem registerReadValue : Obligations.RegisterReadValue := by
  intro off s
  obtain ⟨r, rfl⟩ | hres := regOffset_or_reserved off
  · rw [hostReadReg, readRegister_regOffset]
    cases r <;> rfl
  · rw [hostReadReg, readRegister_of_reserved hres]
    simp (disch := decide) only [ne_of_reserved hres, if_false]
    rfl

/-- Settles O9: such an offset names no register. -/
theorem reservedOffsetsAreInert : Obligations.ReservedOffsetsAreInert := by
  intro off d s h
  have hres := regAt_eq_none_of_reserved h
  refine ⟨?_, hostWriteReg_of_reserved hres d s⟩
  rw [hostReadReg, readRegister_of_reserved hres]
  rfl

/-! ## What a transaction changes in the descriptors and in STATUS -/

/-- R20: D changes only through an INITD, which then answers SUCCESS. -/
theorem descD_of_answers {i : Instr} {s t : State} (h : Answers s i t) :
    t.descD = s.descD ∨ i = .initd ∧ t.status.resp = .success := by
  cases h with
  | initdCommits => exact .inr ⟨rfl, rfl⟩
  | rundRuns =>
    obtain ⟨-, -, -, hd, -⟩ := (onlyAccMem_runDecimator s).fields
    exact .inl hd
  | runiRuns =>
    obtain ⟨-, -, -, hd, -⟩ := (onlyAccMem_runInterpolator s).fields
    exact .inl hd
  | _ => exact .inl rfl

/-- R20: I changes only through an INITI, which then answers SUCCESS. -/
theorem descI_of_answers {i : Instr} {s t : State} (h : Answers s i t) :
    t.descI = s.descI ∨ i = .initi ∧ t.status.resp = .success := by
  cases h with
  | initiCommits => exact .inr ⟨rfl, rfl⟩
  | rundRuns =>
    obtain ⟨-, -, -, -, hd, -⟩ := (onlyAccMem_runDecimator s).fields
    exact .inl hd
  | runiRuns =>
    obtain ⟨-, -, -, -, hd, -⟩ := (onlyAccMem_runInterpolator s).fields
    exact .inl hd
  | _ => exact .inl rfl

/-- A transaction runs a command, is the write of an illegal command word, or leaves the descriptors and
STATUS as they were. -/
theorem transact_cases {x : Transaction} {s t : State} (h : transact x s = .next t) :
    (∃ i, x = .hwr 0x14#32 (encode i) ∧ Answers (s.setCmd (encode i)) i t) ∨
    (∃ d, x = .hwr 0x14#32 d ∧ t = contractViolation .illegalCommand (s.setCmd d)) ∨
    t.descD = s.descD ∧ t.descI = s.descI ∧ t.status = s.status := by
  cases x with
  | hwr off d =>
    obtain ⟨v, rfl⟩ | ⟨hcmd, hw⟩ | rfl := hostWriteReg_cases h
    · exact .inr (.inr ⟨rfl, rfl, rfl⟩)
    · obtain rfl := regAt_eq_some_iff.mp hcmd
      obtain ⟨i, hi, hexec⟩ | ⟨-, rfl⟩ := writeCommand_cases hw
      · obtain rfl := decode_eq_ok_iff.mp hi
        exact .inl ⟨i, rfl, answers_of_exec hexec⟩
      · exact .inr (.inl ⟨d, rfl, rfl⟩)
    · exact .inr (.inr ⟨rfl, rfl, rfl⟩)
  | hrd off => cases h; exact .inr (.inr ⟨rfl, rfl, rfl⟩)
  | mwr a w =>
    obtain ⟨-, rfl⟩ := hostWriteMem_cases h
    exact .inr (.inr ⟨rfl, rfl, rfl⟩)
  | mrd a =>
    obtain ⟨-, rfl⟩ := hostReadMem_cases h
    exact .inr (.inr ⟨rfl, rfl, rfl⟩)

/-- Settles O10: `hostWriteReg` has no arm for STATUS or a mirror; and by `transact_cases` a change is a
command's, which then is the channel's initialisation, or for STATUS alone an illegal command word's. -/
theorem readOnlyRegistersKeepTheirValue : Obligations.ReadOnlyRegistersKeepTheirValue := by
  refine ⟨fun off d s h => ?_, fun x s t h => ?_⟩
  · obtain rfl | rfl | rfl | rfl | rfl | rfl | rfl | rfl | rfl | rfl | rfl := h <;> rfl
  · obtain ⟨i, rfl, ha⟩ | ⟨d, rfl, rfl⟩ | ⟨hd, hi, hst⟩ := transact_cases h
    · refine ⟨fun hne => ?_, fun hne => ?_, fun _ => ⟨_, rfl⟩⟩
      · obtain ⟨rfl, hresp⟩ := (descD_of_answers ha).resolve_left hne
        exact ⟨by rw [encode_initd], hresp⟩
      · obtain ⟨rfl, hresp⟩ := (descI_of_answers ha).resolve_left hne
        exact ⟨by rw [encode_initi], hresp⟩
    · exact ⟨fun hne => absurd rfl hne, fun hne => absurd rfl hne, fun _ => ⟨d, rfl⟩⟩
    · exact ⟨fun hne => absurd hd hne, fun hne => absurd hi hne, fun hne => absurd hst hne⟩

/-! ## Sample memory accesses -/

/-- Settles O11: inside MEM the answer is `writeWord`, which changes that word of MEM alone. -/
theorem hostMemoryWriteEffect : Obligations.HostMemoryWriteEffect := by
  refine ⟨fun a w s => ⟨fun ha => ?_, fun ha => if_neg ha⟩, fun off w rest s he => step_of_events he⟩
  refine ⟨writeWord a.toNat w s, if_pos ha, rfl, ?_, fun b hb => ?_⟩
  · rw [readWord_writeWord, if_pos rfl]
  · rw [readWord_writeWord, if_neg hb]

/-- Settles O12: the address decides between the two branches of MRD. -/
theorem hostMemoryReadValue : Obligations.HostMemoryReadValue :=
  fun _ _ => ⟨fun ha => if_pos ha, fun ha => if_neg ha⟩

/-! ## The write of a command word -/

/-- R213: a step that takes the write of a command's word to CMD is the command. -/
theorem step_of_command {s : State} {w : Word} {i : Instr} {rest : List Event}
    (he : s.events = .host (.hwr 0x14#32 w) :: rest) (hi : decode w = .ok i) :
    step s = exec i ((s.setEvents rest).setCmd w) := by
  rw [step_of_events he, perform, transact, hostWriteReg_cmd rfl, writeCommand_ok hi]

/-- A command word presented to the unit is the write of that word to CMD, ahead of the other events. -/
theorem withFetchWord_events (s : State) (w : Word) :
    (s.withFetchWord 32 w.toNat).events = .host (.hwr 0x14#32 w) :: s.events := by
  rw [State.withFetchWord, presentCommand, Nat.mod_eq_of_lt w.isLt, BitVec.ofNat_toNat,
    BitVec.setWidth_eq]
  rfl

/-- Settles O5: a presented word is the next event, so the first part gives the second. -/
theorem stepRunsTheDecodedCommand : Obligations.StepRunsTheDecodedCommand :=
  ⟨fun _ _ _ _ he hi => step_of_command he hi,
    fun s w _ hi => step_of_command (withFetchWord_events s w) hi⟩

end Sys2Proof.Machine
end

section
/-! SUPPORT. How a command ends (spec/60_exceptions.md R230 to R239): the three responses and what each
writes, that CVS is only written, and where a command stops. -/

namespace Sys2Proof.Machine

/-! ## The three responses -/

/-- R231: a command ends in a SUCCESS that may set the live bit of its channel, in the INVALID_PARAMETER of
an initialisation, or in the contract violation of a rejected RUN. -/
theorem response_of_answers {i : Instr} {s t : State} (h : Answers s i t) :
    t.status = ⟨.success, .noCause, s.status.liveD || i == .initd, s.status.liveI || i == .initi,
      s.status.cvs⟩ ∨
    (i = .initd ∨ i = .initi) ∧ t = respond .invalidParameter s ∨
    ∃ c, (i = .rund ∧ rejectD s = some c ∨ i = .runi ∧ rejectI s = some c) ∧
      t = contractViolation c s := by
  cases h with
  | initdCommits => exact .inl (by simp [commitD])
  | initiCommits => exact .inl (by simp [commitI])
  | initdFails => exact .inr (.inl ⟨.inl rfl, rfl⟩)
  | initiFails => exact .inr (.inl ⟨.inr rfl, rfl⟩)
  | rundRejected hc => exact .inr (.inr ⟨_, .inl ⟨rfl, hc⟩, rfl⟩)
  | runiRejected hc => exact .inr (.inr ⟨_, .inr ⟨rfl, hc⟩, rfl⟩)
  | rundRuns =>
    obtain ⟨-, -, hst, -⟩ := (onlyAccMem_runDecimator s).fields
    exact .inl (by simp [hst])
  | runiRuns =>
    obtain ⟨-, -, hst, -⟩ := (onlyAccMem_runInterpolator s).fields
    exact .inl (by simp [hst])

/-- Settles O18: the three responses of R231, and a rejected RUN has a cause. -/
theorem responsesWriteStatus : Obligations.ResponsesWriteStatus := by
  intro i s t h
  obtain hst | ⟨-, rfl⟩ | ⟨c, hc, rfl⟩ := response_of_answers (answers_of_exec h)
  · rw [hst]
    simp +contextual
  · simp
  · have hcause : c ≠ .noCause := by
      rintro rfl
      obtain ⟨-, hc⟩ | ⟨-, hc⟩ := hc
      · exact rejectD_ne_noCause s hc
      · exact rejectI_ne_noCause s hc
    simp [hcause]

/-! ## The causes -/

/-- R158: RUND is rejected for its own five lines, never for an illegal command word. -/
theorem rejectD_ne_illegalCommand (s : State) : rejectD s ≠ some .illegalCommand := by
  unfold rejectD
  split_ifs <;> simp

/-- R188: RUNI is rejected for its own four lines, never for an illegal command word. -/
theorem rejectI_ne_illegalCommand (s : State) : rejectI s ≠ some .illegalCommand := by
  unfold rejectI
  split_ifs <;> simp

/-- R188: RUNI takes a block of any size up to Bmax, so cause 3 does not arise. -/
theorem rejectI_ne_blockNotMultiple (s : State) : rejectI s ≠ some .blockNotMultiple := by
  unfold rejectI
  split_ifs <;> simp

/-- Settles O19: the three responses of R231, and the causes a RUN is rejected with. -/
theorem whichCommandGivesWhichResponse : Obligations.WhichCommandGivesWhichResponse := by
  intro i s t h
  obtain hst | ⟨rfl | rfl, rfl⟩ | ⟨c, ⟨rfl, hc⟩ | ⟨rfl, hc⟩, rfl⟩ :=
    response_of_answers (answers_of_exec h)
  · rw [hst]
    simp
  · simp
  · simp
  · have hillegal : c ≠ .illegalCommand := fun e => rejectD_ne_illegalCommand s (e ▸ hc)
    simp [hillegal]
  · have hillegal : c ≠ .illegalCommand := fun e => rejectI_ne_illegalCommand s (e ▸ hc)
    have hblock : c ≠ .blockNotMultiple := fun e => rejectI_ne_blockNotMultiple s (e ▸ hc)
    simp [hillegal, hblock]

/-- Settles O21: a violation is `contractViolation`, which writes STATUS alone; and of the commands only an
accepted RUN touches MEM. -/
theorem violationChangesOnlyStatus : Obligations.ViolationChangesOnlyStatus := by
  intro i s t h hresp
  refine ⟨?_, (onlyAcceptedRunsTouchMemory i s t h (.inr (.inr (by simp [hresp])))).2⟩
  obtain hst | ⟨-, rfl⟩ | ⟨c, -, rfl⟩ := response_of_answers (answers_of_exec h)
  · simp [hst] at hresp
  · simp at hresp
  · rfl

/-! ## CVS -/

/-- The state with a violation on record (R237). -/
def withCvs (s : State) : State := { s with status := { s.status with cvs := true } }

/-- R237: the work of a RUN does not read CVS, and no end of a command clears it. -/
theorem unreadByRun_withCvs : UnreadByRun withCvs := by
  constructor <;> intros <;> rfl

theorem execInitd_withCvs (s : State) : execInitd (withCvs s) = mapNext withCvs (execInitd s) := by
  by_cases hv : validD s.memWords (initdOperands s)
  · rw [execInitd_of_valid hv, execInitd_of_valid (s := withCvs s) hv]; rfl
  · rw [execInitd_of_invalid hv, execInitd_of_invalid (s := withCvs s) hv]; rfl

theorem execIniti_withCvs (s : State) : execIniti (withCvs s) = mapNext withCvs (execIniti s) := by
  by_cases hv : validI s.memWords (initiOperands s)
  · rw [execIniti_of_valid hv, execIniti_of_valid (s := withCvs s) hv]; rfl
  · rw [execIniti_of_invalid hv, execIniti_of_invalid (s := withCvs s) hv]; rfl

/-- Settles O20: each command commutes with setting CVS. -/
theorem cvsHasNoEffectOnCommands : Obligations.CvsHasNoEffectOnCommands := by
  intro i s
  cases i with
  | initd => exact execInitd_withCvs s
  | rund => exact unreadByRun_withCvs.execRund (fun _ => rfl) (fun _ => rfl) s
  | initi => exact execIniti_withCvs s
  | runi => exact unreadByRun_withCvs.execRuni (fun _ => rfl) (fun _ => rfl) s

/-! ## Stops -/

/-- R27: an accepted RUND finds the channel live, so its descriptor is a committed one. -/
theorem validD_of_accepted {s : State} (hinv : s.descriptorInvD) (hacc : rejectD s = none) :
    validD s.memWords s.descD := by
  obtain ⟨hlive, -⟩ := rejectD_eq_none hacc
  obtain ⟨hdead, -⟩ | ⟨-, hv⟩ := hinv
  · exact absurd (hlive.symm.trans hdead) (by decide)
  · exact hv

/-- R27: an accepted RUNI finds the channel live, so its descriptor is a committed one. -/
theorem validI_of_accepted {s : State} (hinv : s.descriptorInvI) (hacc : rejectI s = none) :
    validI s.memWords s.descI := by
  obtain ⟨hlive, -⟩ := rejectI_eq_none hacc
  obtain ⟨hdead, -⟩ | ⟨-, hv⟩ := hinv
  · exact absurd (hlive.symm.trans hdead) (by decide)
  · exact hv

/-- INITD always answers a next state (R150). -/
theorem execInitd_answers (s : State) : ∃ t, execInitd s = .next t := by
  by_cases hv : validD s.memWords (initdOperands s)
  · exact ⟨_, execInitd_of_valid hv⟩
  · exact ⟨_, execInitd_of_invalid hv⟩

/-- INITI always answers a next state (R180). -/
theorem execIniti_answers (s : State) : ∃ t, execIniti s = .next t := by
  by_cases hv : validI s.memWords (initiOperands s)
  · exact ⟨_, execIniti_of_valid hv⟩
  · exact ⟨_, execIniti_of_invalid hv⟩

/-- R61, R239: under R27 a RUND answers a next state, or is accepted and its regions overlap. -/
theorem execRund_answers_or_overlaps {s : State} (hinv : s.descriptorInvD) :
    (∃ t, execRund s = .next t) ∨
    rejectD s = none ∧ ¬ (regionsD s).pairwiseDisjoint ∧ execRund s = .refused .regionsOverlap := by
  cases hrej : rejectD s with
  | some c => exact .inl ⟨_, execRund_of_reject hrej⟩
  | none =>
    have hv := validD_of_accepted hinv hrej
    by_cases hd : (regionsD s).pairwiseDisjoint
    · exact .inl ⟨_, execRund_of_runsD ⟨hrej, hv, hd⟩⟩
    · exact .inr ⟨rfl, hd, execRund_of_overlap hrej hv hd⟩

/-- R61, R239: under R27 a RUNI answers a next state, or is accepted and its regions overlap. -/
theorem execRuni_answers_or_overlaps {s : State} (hinv : s.descriptorInvI) :
    (∃ t, execRuni s = .next t) ∨
    rejectI s = none ∧ ¬ (regionsI s).pairwiseDisjoint ∧ execRuni s = .refused .regionsOverlap := by
  cases hrej : rejectI s with
  | some c => exact .inl ⟨_, execRuni_of_reject hrej⟩
  | none =>
    have hv := validI_of_accepted hinv hrej
    by_cases hd : (regionsI s).pairwiseDisjoint
    · exact .inl ⟨_, execRuni_of_runsI ⟨hrej, hv, hd⟩⟩
    · exact .inr ⟨rfl, hd, execRuni_of_overlap hrej hv hd⟩

/-- Settles O29: an illegal descriptor is the fault; under the invariant no accepted RUN meets one, which
leaves the overlap. -/
theorem commandsStopOnlyOnOverlap : Obligations.CommandsStopOnlyOnOverlap := by
  refine ⟨fun s => execRund_of_notLegal, fun s => execRuni_of_notLegal, ?_⟩
  rintro i s ⟨-, hD, hI, -⟩
  cases i with
  | initd => exact .inl (execInitd_answers s)
  | initi => exact .inl (execIniti_answers s)
  | rund => exact (execRund_answers_or_overlaps hD).imp_right fun h => .inl ⟨rfl, h⟩
  | runi => exact (execRuni_answers_or_overlaps hI).imp_right fun h => .inr ⟨rfl, h⟩

end Sys2Proof.Machine
end

section
/-! SUPPORT. The reset input (spec/70_reset_and_hazards.md R260, R261), and the bits of STATUS that only it
clears. -/

namespace Sys2Proof.Machine

/-- `v` follows `u` with no bit lost of the three that only reset clears (R237, R261): CVS, LIVE_D and
LIVE_I. -/
structure Status.KeepsSticky (u v : Status) : Prop where
  cvs : u.cvs = true → v.cvs = true
  liveD : u.liveD = true → v.liveD = true
  liveI : u.liveI = true → v.liveI = true

theorem Status.KeepsSticky.refl (u : Status) : u.KeepsSticky u := ⟨id, id, id⟩

/-- A contract violation sets CVS and leaves both channels live (R231, R236). -/
theorem keepsSticky_contractViolation (c : Cause) (s : State) :
    s.status.KeepsSticky (contractViolation c s).status := ⟨fun _ => rfl, id, id⟩

/-- Each of the three ends of a command keeps the sticky bits: a SUCCESS may set a live bit, an
INVALID_PARAMETER writes RESP and CAUSE alone (R231). -/
theorem keepsSticky_of_answers {i : Instr} {s t : State} (h : Answers s i t) :
    s.status.KeepsSticky t.status := by
  obtain hst | ⟨-, rfl⟩ | ⟨c, -, rfl⟩ := response_of_answers h
  · rw [hst]
    exact ⟨id, fun hd => by simp [hd], fun hi => by simp [hi]⟩
  · exact ⟨id, id, id⟩
  · exact keepsSticky_contractViolation c s

/-- No host transaction clears a sticky bit: it runs a command, is a violation, or leaves STATUS. -/
theorem keepsSticky_of_transact {x : Transaction} {s t : State} (h : transact x s = .next t) :
    s.status.KeepsSticky t.status := by
  obtain ⟨i, -, ha⟩ | ⟨d, -, rfl⟩ | ⟨-, -, hst⟩ := transact_cases h
  · exact keepsSticky_of_answers (s := s.setCmd (encode i)) ha
  · exact keepsSticky_contractViolation _ (s.setCmd d)
  · rw [hst]
    exact .refl s.status

/-- An event other than reset that answers a next state is a host transaction, which clears no sticky
bit. -/
theorem keepsSticky_of_perform {e : Event} {s t : State} (h : perform e s = .next t)
    (he : e ≠ .reset) : s.status.KeepsSticky t.status := by
  cases e with
  | host x => exact keepsSticky_of_transact h
  | reset => exact absurd rfl he
  | oddAccess off w => cases h

/-- Settles O17: reset is `resetUnit`, which takes the registers of the reset state and the rest of the
state before; every other event keeps the sticky bits. -/
theorem resetEventEffect : Obligations.ResetEventEffect := by
  refine ⟨fun _ => rfl, fun e s t h he => ?_⟩
  obtain ⟨hcvs, hliveD, hliveI⟩ := keepsSticky_of_perform h he
  exact ⟨hcvs, hliveD, hliveI⟩

end Sys2Proof.Machine
end
